-- ==== Sys2Proof/Word.lean ====
section
/-! DEFINITION. The widths of the machine (spec/00_scope.md R7, R8) and the names of its register
cells and pairs (spec/10_state.md R10, R16). All values are unsigned. -/

namespace Sys2Proof

/-- An 8-bit cell: a general register, the flag byte, a byte of memory (R10, R28). -/
abbrev Byte := BitVec 8

/-- A 16-bit value: pc, sp, a register pair, an address the CPU forms (R16, R18, R20). -/
abbrev Word := BitVec 16

/-- The eight register cells (R10): seven general registers and the flag byte F. -/
inductive Reg where
  | A | B | C | D | E | H | L | F
  deriving DecidableEq, Repr, Inhabited

/-- The four register pairs (R16), first register high. -/
inductive Pair where
  | AF | BC | DE | HL
  deriving DecidableEq, Repr, Inhabited

end Sys2Proof
end

