-- ==== Sys2Proof/Config.lean ====
section
/-! DEFINITION. What one machine fixes (the OPEN parameters of spec/00_scope.md R6), what the agents of
spec/40_engine.md R100 can do, and the one free value of the model: which agents move when nothing
else says so. -/

namespace Sys2Proof

/-- The PC advance of a placeholder load, a parameter in {1, 2} (spec/42_loads.md R140, R141). -/
inductive PhLen where
  | one | two
  deriving DecidableEq, Repr, Inhabited

/-- The OPEN parameters of R6 that are numbers. `INIT_MEM` is an argument of `Machine.construct`. They
never change while the machine exists; they stand in State so that every statement holds for every
value of them. DESIGN CHOICE: log entries 6, 7 and 10. -/
structure Config where
  /-- `FREQ_HZ`, an unsigned 32-bit number of Hz, greater than 0 (spec/47_clock.md R211). -/
  freqHz : BitVec 32
  /-- `HALT_SEED_ADDR`, in 0x0100 to 0xFFFE (spec/70_reset_and_hazards.md R262). -/
  haltSeedAddr : Word
  /-- `LDA_PH_LEN_0A` (R140). -/
  ldaPhLen0A : PhLen
  /-- `LDA_PH_LEN_1A` (R141). -/
  ldaPhLen1A : PhLen
  deriving DecidableEq, Repr

/-- What the host can do to the machine outside a run: the writes of spec/70_reset_and_hazards.md R266
and the call of `run()` (spec/40_engine.md R100). -/
inductive HostAction where
  | writeReg (r : Reg) (v : Byte)
  | writePair (p : Pair) (v : Word)
  | setPc (v : Word)
  | setSp (v : Word)
  /-- The store's `write(address, bytes)`; its address is wider than 16 bits (spec/20_memory.md R41). -/
  | writeMem (addr : Nat) (bytes : List Byte)
  | run
  deriving DecidableEq, Repr, Inhabited

/-- One move of one agent (R100): a tick of the clock, a poll of the CPU, an action of the host. -/
inductive Move where
  | clock
  | cpu
  | host (a : HostAction)
  deriving DecidableEq, Repr, Inhabited

/-- FREE VALUE (log entry 2). The spec fixes no order between the agents (R100; spec/93, U11): the moves
before a tick or a poll that `Machine.freeRound` guarantees are `freeMoves n`, of which nothing is known but
that the list ends, as every list does. -/
opaque Config.freeMoves : Nat → List Move

end Sys2Proof
end

