-- ==== Sys2Proof/Machine/Params.lean ====
section
/-! DEFINITION. The fixed parameters of spec/00_scope.md R6 and the spec's defaults for its OPEN ones. -/

namespace Sys2Proof.Machine

/-- `MEM_SIZE` (R6; spec/20_memory.md R40): valid addresses are 0x0000 to 0xFFFE. -/
def memSize : Nat := 65535

/-- `ENTRY_PC` (R6; spec/10_state.md R18). -/
def entryPc : Word := 0x0100#16

/-- `SP_RESET` (R6; spec/10_state.md R20). -/
def spReset : Word := 0x0000#16

/-- `ADDHL_HALF_MASK` (R6; spec/46_add16.md R200; spec/90_conflicts.md C9). -/
def addHlHalfMask : Nat := 0x07FF

/-- `STOP_GATES_RUN` (R6; spec/41_control.md R121): fixed at false, the stopped flag gates nothing. -/
def stopGatesRun : Bool := false

/-- The byte reset plants at `HALT_SEED_ADDR` (spec/70_reset_and_hazards.md R262): the HALT opcode. -/
def haltSeedByte : Byte := 0x76#8

/-- The byte of `INIT_MEM` at every address, the spec's default (R261, decision D6).
DESIGN CHOICE, unsafe: log entry 6. -/
def initMemByte : Byte := 0x00#8

/-- PC advance of a placeholder load as a number (R140, R141). -/
def phLen : PhLen → Nat
  | .one => 1
  | .two => 2

/-- The parameters of the reset machine: the spec's defaults (R6). DESIGN CHOICE: log entries 6, 7; the
spec gives no integer for `FREQ_HZ` (log entry 10). -/
def defaultConfig : Config where
  freqHz := 1#32
  haltSeedAddr := 0xFFFE#16
  ldaPhLen0A := .one
  ldaPhLen1A := .two

end Sys2Proof.Machine
end

