-- ==== Sys2Proof/Syntax.lean ====
section
/-! DEFINITION. The 43 instructions of spec/30_encoding.md R66, one constructor per row of the opcode
table, in the table's order. A constructor carries the immediate the instruction reads (d8, d16, a16,
or the placeholder byte of spec/42_loads.md R140 and R141) and nothing else: register operands are part
of the opcode byte (R63), and STOP's second byte is never read (R68). -/

namespace Sys2Proof

inductive Instr where
  | nop
  | ldBCd16 (d16 : Word)
  | ldIndBCA
  | incBC
  | incB
  | decB
  | ldBd8 (d8 : Byte)
  | rlca
  | ldIndA16SP (a16 : Word)
  | addHLBC
  | ldAPh0A (ph : Byte)
  | decBC
  | incC
  | decC
  | ldCd8 (d8 : Byte)
  | rrca
  | stop
  | ldDEd16 (d16 : Word)
  | ldIndDEA
  | incDE
  | incD
  | decD
  | ldDd8 (d8 : Byte)
  | rla
  | ldAPh1A (ph : Byte)
  | decDE
  | incE
  | decE
  | ldEd8 (d8 : Byte)
  | rra
  | ldHLd16 (d16 : Word)
  | incHL
  | incH
  | decH
  | ldHd8 (d8 : Byte)
  | decHL
  | incL
  | decL
  | ldLd8 (d8 : Byte)
  | incA
  | decA
  | ldAd8 (d8 : Byte)
  | halt
  deriving DecidableEq, Repr, Inhabited

end Sys2Proof
end

