-- ==== Sys2Proof/Decode.lean ====
section
/-! DEFINITION. The decoder (spec/30_encoding.md R60 to R68, R71), the encoder, and the length and cost
that the dispatcher declares for each row (R66; spec/40_engine.md R106, R107). The opcode byte values
but for 0x00, 0x01 and 0x76 are the published table's, as R66 lists them (PRESUMED by the spec: log
entry 8). -/

namespace Sys2Proof

/-! Byte order: little-endian, R7, R42, R63. -/

/-- `v[15:8]`. -/
def highByte (v : Word) : Byte := v.extractLsb' 8 8

/-- `v[7:0]`. -/
def lowByte (v : Word) : Byte := v.extractLsb' 0 8

/-- `h || l`. -/
def joinBytes (h l : Byte) : Word := h ++ l

/-- One row of the dispatcher (R106): the format of R60 with the instruction it makes of its immediate. -/
inductive Row where
  | op (i : Instr)
  | opD8 (mk : Byte → Instr)
  | opD16 (mk : Word → Instr)
  | opPad (i : Instr)

/-- `Dispatch(op)` (R106, R71): one of the 43 rows of R66, or none for the 213 unimplemented bytes (R67). -/
def dispatch (op : Byte) : Option Row :=
  match op.toNat with
  | 0x00 => some (.op .nop)
  | 0x01 => some (.opD16 .ldBCd16)
  | 0x02 => some (.op .ldIndBCA)
  | 0x03 => some (.op .incBC)
  | 0x04 => some (.op .incB)
  | 0x05 => some (.op .decB)
  | 0x06 => some (.opD8 .ldBd8)
  | 0x07 => some (.op .rlca)
  | 0x08 => some (.opD16 .ldIndA16SP)
  | 0x09 => some (.op .addHLBC)
  | 0x0A => some (.opD8 .ldAPh0A)
  | 0x0B => some (.op .decBC)
  | 0x0C => some (.op .incC)
  | 0x0D => some (.op .decC)
  | 0x0E => some (.opD8 .ldCd8)
  | 0x0F => some (.op .rrca)
  | 0x10 => some (.opPad .stop)
  | 0x11 => some (.opD16 .ldDEd16)
  | 0x12 => some (.op .ldIndDEA)
  | 0x13 => some (.op .incDE)
  | 0x14 => some (.op .incD)
  | 0x15 => some (.op .decD)
  | 0x16 => some (.opD8 .ldDd8)
  | 0x17 => some (.op .rla)
  | 0x1A => some (.opD8 .ldAPh1A)
  | 0x1B => some (.op .decDE)
  | 0x1C => some (.op .incE)
  | 0x1D => some (.op .decE)
  | 0x1E => some (.opD8 .ldEd8)
  | 0x1F => some (.op .rra)
  | 0x21 => some (.opD16 .ldHLd16)
  | 0x23 => some (.op .incHL)
  | 0x24 => some (.op .incH)
  | 0x25 => some (.op .decH)
  | 0x26 => some (.opD8 .ldHd8)
  | 0x2B => some (.op .decHL)
  | 0x2C => some (.op .incL)
  | 0x2D => some (.op .decL)
  | 0x2E => some (.opD8 .ldLd8)
  | 0x3C => some (.op .incA)
  | 0x3D => some (.op .decA)
  | 0x3E => some (.opD8 .ldAd8)
  | 0x76 => some (.op .halt)
  | _ => none

/-- Why a byte list is no instruction. -/
inductive DecodeError where
  /-- There is no opcode byte. -/
  | noOpcode
  /-- The opcode byte is none of the 43 (R67). -/
  | unimplementedOpcode (op : Byte)
  /-- The list ends before the immediate of this opcode does. -/
  | missingImmediate (op : Byte)
  deriving DecidableEq, Repr

/-- The instruction a list of bytes begins with, in the order they stand in memory (R60). It reads the
bytes the instruction reads and no more; the next instruction lies `Instr.length` further on, which for a
placeholder load is a parameter. -/
def decode : List Byte → Except DecodeError Instr
  | [] => .error .noOpcode
  | op :: rest =>
    match dispatch op with
    | none => .error (.unimplementedOpcode op)
    | some (.op i) => .ok i
    | some (.opPad i) => .ok i
    | some (.opD8 mk) =>
      match rest with
      | d :: _ => .ok (mk d)
      | [] => .error (.missingImmediate op)
    | some (.opD16 mk) =>
      match rest with
      | l :: h :: _ => .ok (mk (joinBytes h l))
      | _ => .error (.missingImmediate op)

/-- The opcode byte of an instruction, from the table of R66. -/
def Instr.opcode : Instr → Byte
  | .nop => 0x00#8
  | .ldBCd16 _ => 0x01#8
  | .ldIndBCA => 0x02#8
  | .incBC => 0x03#8
  | .incB => 0x04#8
  | .decB => 0x05#8
  | .ldBd8 _ => 0x06#8
  | .rlca => 0x07#8
  | .ldIndA16SP _ => 0x08#8
  | .addHLBC => 0x09#8
  | .ldAPh0A _ => 0x0A#8
  | .decBC => 0x0B#8
  | .incC => 0x0C#8
  | .decC => 0x0D#8
  | .ldCd8 _ => 0x0E#8
  | .rrca => 0x0F#8
  | .stop => 0x10#8
  | .ldDEd16 _ => 0x11#8
  | .ldIndDEA => 0x12#8
  | .incDE => 0x13#8
  | .incD => 0x14#8
  | .decD => 0x15#8
  | .ldDd8 _ => 0x16#8
  | .rla => 0x17#8
  | .ldAPh1A _ => 0x1A#8
  | .decDE => 0x1B#8
  | .incE => 0x1C#8
  | .decE => 0x1D#8
  | .ldEd8 _ => 0x1E#8
  | .rra => 0x1F#8
  | .ldHLd16 _ => 0x21#8
  | .incHL => 0x23#8
  | .incH => 0x24#8
  | .decH => 0x25#8
  | .ldHd8 _ => 0x26#8
  | .decHL => 0x2B#8
  | .incL => 0x2C#8
  | .decL => 0x2D#8
  | .ldLd8 _ => 0x2E#8
  | .incA => 0x3C#8
  | .decA => 0x3D#8
  | .ldAd8 _ => 0x3E#8
  | .halt => 0x76#8

/-- The immediate bytes that follow the opcode byte in memory, low byte first (R62, R63). For a
placeholder load it is the byte the load reads (R140, R141), whatever the length parameter. -/
def Instr.immediateBytes : Instr → List Byte
  | .nop => []
  | .ldBCd16 v => [lowByte v, highByte v]
  | .ldIndBCA => []
  | .incBC => []
  | .incB => []
  | .decB => []
  | .ldBd8 d => [d]
  | .rlca => []
  | .ldIndA16SP a => [lowByte a, highByte a]
  | .addHLBC => []
  | .ldAPh0A d => [d]
  | .decBC => []
  | .incC => []
  | .decC => []
  | .ldCd8 d => [d]
  | .rrca => []
  | .stop => []
  | .ldDEd16 v => [lowByte v, highByte v]
  | .ldIndDEA => []
  | .incDE => []
  | .incD => []
  | .decD => []
  | .ldDd8 d => [d]
  | .rla => []
  | .ldAPh1A d => [d]
  | .decDE => []
  | .incE => []
  | .decE => []
  | .ldEd8 d => [d]
  | .rra => []
  | .ldHLd16 v => [lowByte v, highByte v]
  | .incHL => []
  | .incH => []
  | .decH => []
  | .ldHd8 d => [d]
  | .decHL => []
  | .incL => []
  | .decL => []
  | .ldLd8 d => [d]
  | .incA => []
  | .decA => []
  | .ldAd8 d => [d]
  | .halt => []

/-- The bytes an instruction reads, as they stand in memory. STOP's pad byte may hold anything (R68) and
is not among them. -/
def encode (i : Instr) : List Byte := i.opcode :: i.immediateBytes

/-- The encoded length of R66, by which pc advances (spec/10_state.md R19). It depends on the opcode byte
and, for the two placeholder loads, on a parameter (R61). -/
def Instr.length (c : Config) : Instr → Nat
  | .nop => 1
  | .ldBCd16 _ => 3
  | .ldIndBCA => 1
  | .incBC => 1
  | .incB => 1
  | .decB => 1
  | .ldBd8 _ => 2
  | .rlca => 1
  | .ldIndA16SP _ => 3
  | .addHLBC => 1
  | .ldAPh0A _ => Machine.phLen c.ldaPhLen0A
  | .decBC => 1
  | .incC => 1
  | .decC => 1
  | .ldCd8 _ => 2
  | .rrca => 1
  | .stop => 2
  | .ldDEd16 _ => 3
  | .ldIndDEA => 1
  | .incDE => 1
  | .incD => 1
  | .decD => 1
  | .ldDd8 _ => 2
  | .rla => 1
  | .ldAPh1A _ => Machine.phLen c.ldaPhLen1A
  | .decDE => 1
  | .incE => 1
  | .decE => 1
  | .ldEd8 _ => 2
  | .rra => 1
  | .ldHLd16 _ => 3
  | .incHL => 1
  | .incH => 1
  | .decH => 1
  | .ldHd8 _ => 2
  | .decHL => 1
  | .incL => 1
  | .decL => 1
  | .ldLd8 _ => 2
  | .incA => 1
  | .decA => 1
  | .ldAd8 _ => 2
  | .halt => 1

/-- The cost in T-cycles of an opcode byte, from the cost table of spec/40_engine.md R107 by family. It is
0 for an unimplemented byte, which never retires (R108). -/
def opcodeCost (op : Byte) : Nat :=
  if op ∈ [0x08#8] then 20
  else if op ∈ [0x01#8, 0x11#8, 0x21#8] then 12
  else if op ∈ [0x02#8, 0x12#8, 0x03#8, 0x13#8, 0x23#8, 0x0B#8, 0x1B#8, 0x2B#8, 0x06#8, 0x0E#8,
      0x16#8, 0x1E#8, 0x26#8, 0x2E#8, 0x3E#8, 0x09#8, 0x0A#8, 0x1A#8] then 8
  else if (dispatch op).isSome then 4
  else 0

/-- The declared cost of an instruction: a function of its opcode byte alone (R106). -/
def Instr.cost (i : Instr) : Nat := opcodeCost i.opcode

/-- The bytes of an instruction given as one number of `nbits` bits, the first byte least significant,
and zeros above up to the longest instruction (three bytes). -/
def tableBytes (nbits w : Nat) : List Byte :=
  let v := w % 2 ^ nbits
  [BitVec.ofNat 8 v, BitVec.ofNat 8 (v / 256), BitVec.ofNat 8 (v / 65536)]

/-- The instruction the decoder reads from a word of the opcode table. -/
def decodeTableWord (nbits w : Nat) : Option Instr :=
  match decode (tableBytes nbits w) with
  | .ok i => some i
  | .error _ => none

end Sys2Proof
end

