-- ==== Sys2Proof/Machine/State.lean ====
section
/-! DEFINITION. The whole state of the machine (the opening tuple of spec/10_state.md), its reset value
(R32), and the reasons a step could stop. The accessors of the registers are in Ops.lean. -/

namespace Sys2Proof.Machine

/-- A record of a fatal error, as the `fault` latch holds it (spec/10_state.md R24; spec/60_exceptions.md
R230 to R232). The third error, `InvalidConfiguration`, leaves no machine to hold it: see `Fault`. -/
inductive FatalError where
  /-- The byte fetched at `pc` is none of the 43 opcodes (R231). -/
  | unimplementedOpcode (op : Byte) (pc : Word)
  /-- An access of `n` bytes at `addr` is not inside the store (R232). -/
  | memoryBoundsViolation (addr n : Nat)
  deriving DecidableEq, Repr

/-- Memory as a list of cells in one canonical form (`Memory.wf`, Ops.lean): what is not listed reads as
`Memory.unlisted` says. -/
abbrev Memory := List Host.Cell

/-- The architectural state of spec/10_state.md, and three fields of the model's own: `config`, the
machine's parameters, which never change; `schedule` and `turn`, which say which agent moves next. -/
structure State where
  /-- The eight cells (R10, R12). -/
  a : Byte
  b : Byte
  c : Byte
  d : Byte
  e : Byte
  h : Byte
  l : Byte
  /-- F: Z, N, H, C in bits 7 to 4, zero in bits 3 to 0 (R12, R13). -/
  f : Byte
  /-- The program counter (R18). -/
  pc : Word
  /-- The stack pointer (R20). -/
  sp : Word
  /-- The store (R28). -/
  mem : Memory
  /-- R21. -/
  halted : Bool
  /-- R22. -/
  stopped : Bool
  /-- The sum of the costs of the retired instructions (R23). A natural number, as R23 allows: log entry 1. -/
  cycleCount : Nat
  /-- The latch of R24: none, or the fatal error that ended the run. -/
  fault : Option FatalError
  /-- R27. -/
  runActive : Bool
  /-- `clock.total_cycles` (R25). A natural number, as R220 allows: log entry 1. -/
  totalCycles : Nat
  /-- `clock.started` (R26). -/
  clockStarted : Bool
  /-- The parameters of this machine (spec/00_scope.md R6). -/
  config : Config
  /-- The moves that come next, in order (R100). The model's own field: log entry 2. -/
  schedule : List Move
  /-- How many rounds of free moves have been begun (`freeRound`). The model's own field: log entry 2. -/
  turn : Nat
  deriving DecidableEq, Repr

/-- Why the model stops with a fault. The two errors a run can raise are no faults of the model: the spec
gives the state they leave, and they are next states (`State.raise`; log entry 5). -/
inductive Fault where
  /-- `InvalidConfiguration` (spec/60_exceptions.md R233): raised by `construct` for frequency 0, never by
  `step` or `exec`. Safe: there is no machine afterwards, as the spec says. -/
  | invalidConfiguration
  deriving DecidableEq, Repr

/-- Why the model declines an instruction. -/
inductive Refusal where
  /-- An instruction without a meaning in the model: none is left, so nothing raises it. Safe. -/
  | notModelled (mnemonic : String)
  deriving DecidableEq, Repr

/-- The machine right after construction with the default parameters (R32; spec/70_reset_and_hazards.md
R260 to R263). No memory cell is listed: every byte reads as its reset contents. `schedule` and `turn` are
a DESIGN CHOICE (log entry 2). -/
def State.reset : State where
  a := 0x00#8
  b := 0x00#8
  c := 0x00#8
  d := 0x00#8
  e := 0x00#8
  h := 0x00#8
  l := 0x00#8
  f := 0x00#8
  pc := entryPc
  sp := spReset
  mem := []
  halted := false
  stopped := false
  cycleCount := 0
  fault := none
  runActive := false
  totalCycles := 0
  clockStarted := false
  config := defaultConfig
  schedule := []
  turn := 0

end Sys2Proof.Machine
end

