-- ==== Sys2Proof/Machine/Ops.lean ====
section
/-! DEFINITION. The named operations over memory, registers and the run: every reader and writer of State
goes through these. -/

namespace Sys2Proof.Machine

/-! ### Memory (spec/20_memory.md) -/

/-- What an unlisted address reads as: the reset contents, `INIT_MEM` with the HALT seed on top
(spec/70_reset_and_hazards.md R261, R262), at the spec's default parameters.
DESIGN CHOICE, unsafe: log entry 6. -/
def Memory.unlisted (addr : Nat) : Byte :=
  if addr = defaultConfig.haltSeedAddr.toNat then haltSeedByte else initMemByte

/-- The byte at an address, without the bounds check. -/
def Memory.read (m : Memory) (addr : Nat) : Byte :=
  match m with
  | [] => Memory.unlisted addr
  | (x, v) :: rest => if x = addr then v else Memory.read rest addr

/-- `m` without any cell for `addr`. -/
def Memory.erase (m : Memory) (addr : Nat) : Memory :=
  match m with
  | [] => []
  | (x, v) :: rest => if x = addr then Memory.erase rest addr else (x, v) :: Memory.erase rest addr

/-- Puts a cell before the first one of a higher address. -/
def Memory.insert (m : Memory) (addr : Nat) (v : Byte) : Memory :=
  match m with
  | [] => [(addr, v)]
  | (x, w) :: rest =>
    if addr < x then (addr, v) :: (x, w) :: rest else (x, w) :: Memory.insert rest addr v

/-- Writes one byte, without the bounds check, keeping the canonical form: a byte equal to what an unlisted
address reads as is not listed. -/
def Memory.write (m : Memory) (addr : Nat) (v : Byte) : Memory :=
  if v = Memory.unlisted addr then Memory.erase m addr
  else Memory.insert (Memory.erase m addr) addr v

/-- Writes bytes at ascending addresses. -/
def Memory.writeBytes (m : Memory) (addr : Nat) (bytes : List Byte) : Memory :=
  match bytes with
  | [] => m
  | v :: rest => Memory.writeBytes (Memory.write m addr v) (addr + 1) rest

/-- The addresses of a list of cells rise strictly from `low` on. -/
def Memory.risingFrom (low : Nat) (m : Memory) : Bool :=
  match m with
  | [] => true
  | (x, _) :: rest => decide (low ≤ x) && Memory.risingFrom (x + 1) rest

/-- The canonical form: addresses strictly rising and inside the store, no cell equal to what an unlisted
address reads as. -/
def Memory.wf (m : Memory) : Bool :=
  Memory.risingFrom 0 m && m.all (fun cell => decide (cell.1 < memSize) && decide (cell.2 ≠ Memory.unlisted cell.1))

/-- The bounds test of R43: an access of `n` bytes at `addr` is inside the store. The sum is taken in
unbounded integers. -/
def inStore (addr n : Nat) : Bool := decide (addr + n ≤ memSize)

/-- `MemRead(addr, 1)` (R44). -/
def Memory.load8 (m : Memory) (addr : Word) : Except FatalError Byte :=
  if inStore addr.toNat 1 then .ok (m.read addr.toNat)
  else .error (.memoryBoundsViolation addr.toNat 1)

/-- `MemRead(addr, 2)` (R44): little-endian, one access, checked whole. -/
def Memory.load16 (m : Memory) (addr : Word) : Except FatalError Word :=
  if inStore addr.toNat 2 then .ok (joinBytes (m.read (addr.toNat + 1)) (m.read addr.toNat))
  else .error (.memoryBoundsViolation addr.toNat 2)

/-- The store's `write(address, bytes)` (R41, R43, R45): the check comes before any byte is stored. -/
def Memory.store (m : Memory) (addr : Nat) (bytes : List Byte) : Except FatalError Memory :=
  if inStore addr bytes.length then .ok (m.writeBytes addr bytes)
  else .error (.memoryBoundsViolation addr bytes.length)

/-! ### Registers and pairs (spec/10_state.md R10 to R17) -/

/-- `x[r]`. -/
def State.reg (s : State) (r : Reg) : Byte :=
  match r with
  | .A => s.a
  | .B => s.b
  | .C => s.c
  | .D => s.d
  | .E => s.e
  | .H => s.h
  | .L => s.l
  | .F => s.f

/-- `x[r] <- v`; a write to F stores `v & 0xF0` (R13). -/
def State.setReg (s : State) (r : Reg) (v : Byte) : State :=
  match r with
  | .A => { s with a := v }
  | .B => { s with b := v }
  | .C => { s with c := v }
  | .D => { s with d := v }
  | .E => { s with e := v }
  | .H => { s with h := v }
  | .L => { s with l := v }
  | .F => { s with f := v &&& 0xF0#8 }

/-- The high register of a pair (R16). -/
def pairHigh : Pair → Reg
  | .AF => .A
  | .BC => .B
  | .DE => .D
  | .HL => .H

/-- The low register of a pair (R16). -/
def pairLow : Pair → Reg
  | .AF => .F
  | .BC => .C
  | .DE => .E
  | .HL => .L

/-- `xp[p]` (R16). -/
def State.pair (s : State) (p : Pair) : Word := joinBytes (s.reg (pairHigh p)) (s.reg (pairLow p))

/-- `xp[p] <- v` (R17). -/
def State.setPair (s : State) (p : Pair) (v : Word) : State :=
  (s.setReg (pairHigh p) (highByte v)).setReg (pairLow p) (lowByte v)

/-! ### The run (spec/40_engine.md, spec/60_exceptions.md) -/

/-- `raise E(info)` (spec/60_exceptions.md R234): the latch is set, the run ends, nothing else changes. It
is the one way an exception is taken; there is no handler, and no return from it exists (R237). -/
def State.raise (s : State) (err : FatalError) : State :=
  { s with fault := some err, runActive := false }

/-- The end of a step that did not raise (spec/40_engine.md R103): pc moves past the instruction, modulo
65,536 (spec/10_state.md R19), and the cost is added. -/
def State.retired (s : State) (len cost : Nat) : State :=
  { s with pc := s.pc + BitVec.ofNat 16 len, cycleCount := s.cycleCount + cost }

/-- The outcome of an instruction whose effect left `s`. -/
def retire (len cost : Nat) (s : State) : Host.Outcome State Fault Refusal :=
  .next (s.retired len cost)

/-- A store of an instruction: the bytes are written and the instruction retires, or the bounds violation is
raised and nothing is written (spec/20_memory.md R45). -/
def storeAndRetire (addr : Word) (bytes : List Byte) (len cost : Nat) (s : State) :
    Host.Outcome State Fault Refusal :=
  match s.mem.store addr.toNat bytes with
  | .ok m => retire len cost { s with mem := m }
  | .error err => .next (s.raise err)

/-- The run is over for good: halted or faulted (spec/60_exceptions.md R251). -/
def State.ended (s : State) : Bool := s.halted || s.fault.isSome

/-- The CPU agent has a step (spec/40_engine.md R101). The stopped flag gates nothing, because
`STOP_GATES_RUN` is false (spec/41_control.md R121). -/
def State.cpuEnabled (s : State) : Bool :=
  s.runActive && !s.ended && !(stopGatesRun && s.stopped)

/-- The loop test that follows a step: on `halted` the loop exits and `run()` returns, which clears
`run_active` (R101; spec/10_state.md R27). DEDUCED: log entry 4. -/
def State.leaveRunIfHalted (s : State) : State :=
  if s.halted then { s with runActive := false } else s

/-- Applies `g` to the state of a next outcome. -/
def mapNext (g : State → State) (o : Host.Outcome State Fault Refusal) :
    Host.Outcome State Fault Refusal :=
  match o with
  | .next s => .next (g s)
  | .fault r => .fault r
  | .refused r => .refused r

/-! ### Who moves next (spec/40_engine.md R100; log entry 2) -/

/-- A round of moves, as its first move and the moves after it: moves of any agent, a tick of the clock,
again moves of any agent, a poll of the CPU. -/
def roundOf (beforeTick beforePoll : List Move) : Move × List Move :=
  match beforeTick with
  | [] => (.clock, beforePoll ++ [.cpu])
  | m :: rest => (m, rest ++ .clock :: (beforePoll ++ [.cpu]))

/-- The `n`-th round that follows the schedule: free moves around a tick and a poll. The order of the agents
is free (R100) but weakly fair, as spec/47_clock.md R217 states: the sequences of these rounds, over all values
of `Config.freeMoves`, are exactly the sequences with infinitely many ticks and infinitely many polls. -/
def freeRound (n : Nat) : Move × List Move :=
  roundOf (Config.freeMoves (2 * n)) (Config.freeMoves (2 * n + 1))

/-- The next move and the moves after it: those of the schedule, or a free round. -/
def State.plan (s : State) : Move × List Move :=
  match s.schedule with
  | m :: rest => (m, rest)
  | [] => freeRound s.turn

/-- The next move. -/
def State.nextMove (s : State) : Move := s.plan.1

/-- The schedule after one move; `turn` counts the rounds begun. -/
def State.advanceSchedule (s : State) : State :=
  { s with
    schedule := s.plan.2
    turn := if s.schedule.isEmpty then s.turn + 1 else s.turn }

end Sys2Proof.Machine
end

