-- ==== Sys2Proof/Machine/Flags.lean ====
section
/-! DEFINITION. The flag byte (spec/10_state.md R12 to R14) and every flag computation of the subset:
`Inc8` and `Dec8` (spec/44_incdec.md R168, R169), the rotates (spec/45_rotates.md R190 to R193), the 16-bit
addition (spec/46_add16.md R200). -/

namespace Sys2Proof.Machine

/-! ### The flag byte -/

/-- `flag.Z`, bit 7 of F. -/
def flagZ (f : Byte) : Bool := f.getLsbD 7

/-- `flag.N`, bit 6 of F. -/
def flagN (f : Byte) : Bool := f.getLsbD 6

/-- `flag.H`, bit 5 of F. -/
def flagH (f : Byte) : Bool := f.getLsbD 5

/-- `flag.C`, bit 4 of F. -/
def flagC (f : Byte) : Bool := f.getLsbD 4

/-- `DecodeFlags` (R14): Z, N, H, C; the low nibble is ignored. -/
def decodeFlags (f : Byte) : Bool × Bool × Bool × Bool := (flagZ f, flagN f, flagH f, flagC f)

/-- `EncodeFlags` (R14): Z, N, H, C in bits 7 to 4, low nibble 0. -/
def encodeFlags (z n h c : Bool) : Byte :=
  (if z then 0x80#8 else 0x00#8) ||| (if n then 0x40#8 else 0x00#8) |||
    (if h then 0x20#8 else 0x00#8) ||| (if c then 0x10#8 else 0x00#8)

/-- A flag update rewrites bits 7 to 4 only (R13). -/
def writeFlags (f : Byte) (z n h c : Bool) : Byte := encodeFlags z n h c ||| (f &&& 0x0F#8)

/-- Rewrites the four flags of a state. -/
def State.setFlags (s : State) (z n h c : Bool) : State := { s with f := writeFlags s.f z n h c }

/-! ### 8-bit increment and decrement (R168, R169) -/

/-- `old[3:0]`. -/
def lowNibble (v : Byte) : Byte := v &&& 0x0F#8

/-- `x[r] <- Inc8(x[r])` (R168): H is a carry out of bit 3; C is unchanged. -/
def State.inc8 (s : State) (r : Reg) : State :=
  let old := s.reg r
  let result := old + 1#8
  (s.setReg r result).setFlags (result == 0x00#8) false (lowNibble old == 0x0F#8) (flagC s.f)

/-- `x[r] <- Dec8(x[r])` (R169): H is a borrow from bit 4, the textbook test the spec orders
(spec/90_conflicts.md C3); C is unchanged. -/
def State.dec8 (s : State) (r : Reg) : State :=
  let old := s.reg r
  let result := old - 1#8
  (s.setReg r result).setFlags (result == 0x00#8) true (lowNibble old == 0x00#8) (flagC s.f)

/-! ### 16-bit increment and decrement (R160 to R165): no flag -/

/-- `xp[p] <- xp[p] +_16 1`. -/
def State.inc16 (s : State) (p : Pair) : State := s.setPair p (s.pair p + 1#16)

/-- `xp[p] <- xp[p] -_16 1`. -/
def State.dec16 (s : State) (p : Pair) : State := s.setPair p (s.pair p - 1#16)

/-! ### Rotates of A (R190 to R193) -/

/-- `a[6:0] || low`: left by one bit, `low` into bit 0. -/
def shiftLeftIn (a : Byte) (low : Bool) : Byte := a <<< 1 ||| (if low then 0x01#8 else 0x00#8)

/-- `high || a[7:1]`: right by one bit, `high` into bit 7. -/
def shiftRightIn (a : Byte) (high : Bool) : Byte := a >>> 1 ||| (if high then 0x80#8 else 0x00#8)

/-- The new A and the bit rotated out, into C; Z, N and H are cleared, also for a zero result. -/
def State.rotated (s : State) (result : Byte) (out : Bool) : State :=
  (s.setReg .A result).setFlags false false false out

/-! ### ADD HL,BC (R200) -/

/-- Bits of both operands below the half-carry boundary overflow it: `(hl & M) + (bc & M) > M`. -/
def halfCarry16 (x y : Word) : Bool :=
  decide ((x.toNat &&& addHlHalfMask) + (y.toNat &&& addHlHalfMask) > addHlHalfMask)

/-- The sum of two words exceeds 0xFFFF: `hl > 0xFFFF - bc`. -/
def carry16 (x y : Word) : Bool := decide (x.toNat > 0xFFFF - y.toNat)

/-- `xp[HL] <- xp[HL] +_16 xp[BC]` with H, C and N from the values before the add; Z is unchanged. -/
def State.addHl (s : State) : State :=
  let hl := s.pair .HL
  let bc := s.pair .BC
  (s.setPair .HL (hl + bc)).setFlags (flagZ s.f) false (halfCarry16 hl bc) (carry16 hl bc)

end Sys2Proof.Machine
end

