-- ==== Sys2Proof/Machine/Add16.lean ====
section
/-! DEFINITION. ADD HL,BC (spec/46_add16.md R200). -/

namespace Sys2Proof.Machine

/-- ADD HL,BC (R200). -/
def execAddHLBC (s : State) : Host.Outcome State Fault Refusal :=
  retire 1 8 s.addHl

end Sys2Proof.Machine
end

