-- ==== Sys2Proof/Machine/Control.lean ====
section
/-! DEFINITION. NOP, STOP and HALT (spec/41_control.md). There is no control transfer and no system call in the subset
(R123, R124). -/

namespace Sys2Proof.Machine

/-- NOP (R120): no effect. -/
def execNop (s : State) : Host.Outcome State Fault Refusal :=
  retire 1 4 s

/-- STOP (R121): sets the stopped flag, which gates nothing; the second byte is skipped, never read (R68). -/
def execStop (s : State) : Host.Outcome State Fault Refusal :=
  retire 2 4 { s with stopped := true }

/-- HALT (R122): sets halted; pc and cycle_count still move in the halting step. -/
def execHalt (s : State) : Host.Outcome State Fault Refusal :=
  retire 1 4 { s with halted := true }

end Sys2Proof.Machine
end

