-- ==== Sys2Proof/Machine/IncDec16.lean ====
section
/-! DEFINITION. INC r16 and DEC r16 (spec/44_incdec.md R160 to R165): wrapping, no flag. -/

namespace Sys2Proof.Machine

/-- INC BC (R160). -/
def execIncBC (s : State) : Host.Outcome State Fault Refusal :=
  retire 1 8 (s.inc16 .BC)

/-- INC DE (R161). -/
def execIncDE (s : State) : Host.Outcome State Fault Refusal :=
  retire 1 8 (s.inc16 .DE)

/-- INC HL (R162). -/
def execIncHL (s : State) : Host.Outcome State Fault Refusal :=
  retire 1 8 (s.inc16 .HL)

/-- DEC BC (R163). -/
def execDecBC (s : State) : Host.Outcome State Fault Refusal :=
  retire 1 8 (s.dec16 .BC)

/-- DEC DE (R164). -/
def execDecDE (s : State) : Host.Outcome State Fault Refusal :=
  retire 1 8 (s.dec16 .DE)

/-- DEC HL (R165). -/
def execDecHL (s : State) : Host.Outcome State Fault Refusal :=
  retire 1 8 (s.dec16 .HL)

end Sys2Proof.Machine
end

