-- ==== Sys2Proof/Machine/IncDec8.lean ====
section
/-! DEFINITION. INC r8 and DEC r8 (spec/44_incdec.md R168 to R183). -/

namespace Sys2Proof.Machine

/-- INC B (R170). -/
def execIncB (s : State) : Host.Outcome State Fault Refusal :=
  retire 1 4 (s.inc8 .B)

/-- INC C (R171). -/
def execIncC (s : State) : Host.Outcome State Fault Refusal :=
  retire 1 4 (s.inc8 .C)

/-- INC D (R172). -/
def execIncD (s : State) : Host.Outcome State Fault Refusal :=
  retire 1 4 (s.inc8 .D)

/-- INC E (R173). -/
def execIncE (s : State) : Host.Outcome State Fault Refusal :=
  retire 1 4 (s.inc8 .E)

/-- INC H (R174). -/
def execIncH (s : State) : Host.Outcome State Fault Refusal :=
  retire 1 4 (s.inc8 .H)

/-- INC L (R175). -/
def execIncL (s : State) : Host.Outcome State Fault Refusal :=
  retire 1 4 (s.inc8 .L)

/-- INC A (R176). -/
def execIncA (s : State) : Host.Outcome State Fault Refusal :=
  retire 1 4 (s.inc8 .A)

/-- DEC B (R177). -/
def execDecB (s : State) : Host.Outcome State Fault Refusal :=
  retire 1 4 (s.dec8 .B)

/-- DEC C (R178). -/
def execDecC (s : State) : Host.Outcome State Fault Refusal :=
  retire 1 4 (s.dec8 .C)

/-- DEC D (R179). -/
def execDecD (s : State) : Host.Outcome State Fault Refusal :=
  retire 1 4 (s.dec8 .D)

/-- DEC E (R180). -/
def execDecE (s : State) : Host.Outcome State Fault Refusal :=
  retire 1 4 (s.dec8 .E)

/-- DEC H (R181). -/
def execDecH (s : State) : Host.Outcome State Fault Refusal :=
  retire 1 4 (s.dec8 .H)

/-- DEC L (R182). -/
def execDecL (s : State) : Host.Outcome State Fault Refusal :=
  retire 1 4 (s.dec8 .L)

/-- DEC A (R183). -/
def execDecA (s : State) : Host.Outcome State Fault Refusal :=
  retire 1 4 (s.dec8 .A)

end Sys2Proof.Machine
end

