-- ==== Sys2Proof/Machine/Operands.lean ====
section
/-! DEFINITION. The addressing modes of the subset (spec/43_stores.md R153) and the immediate reads of
spec/30_encoding.md R62 and R63. Address sums are formed in 16 bits (spec/00_scope.md, after R8). -/

namespace Sys2Proof.Machine

/-- `d8`: the byte at `pc +_16 1` (R62). -/
def State.readD8 (s : State) : Except FatalError Byte := s.mem.load8 (s.pc + 1#16)

/-- `d16` or `a16`: the two bytes at `pc +_16 1`, low byte first, one access (R63). -/
def State.readD16 (s : State) : Except FatalError Word := s.mem.load16 (s.pc + 1#16)

/-- Register indirect: the effective address is the pair, which is not modified (R150, R151). -/
def State.indirect (s : State) (p : Pair) : Word := s.pair p

/-- The bytes of SP as LD (a16),SP stores them, little-endian (R152). -/
def State.spBytes (s : State) : List Byte := [lowByte s.sp, highByte s.sp]

/-- Loads an 8-bit value into a register; no flag changes (spec/42_loads.md, section 2). -/
def State.loadReg (s : State) (r : Reg) (v : Byte) : State := s.setReg r v

/-- Loads a 16-bit value into a pair; no flag changes (spec/42_loads.md, section 1). -/
def State.loadPair (s : State) (p : Pair) (v : Word) : State := s.setPair p v

end Sys2Proof.Machine
end

