-- ==== Sys2Proof/Machine/Loads.lean ====
section
/-! DEFINITION. The loads (spec/42_loads.md R130 to R142). None touches a flag. The immediate has been read when the
meaning is called: reading it, and the error of reading it, is in Fetch.lean (R235). -/

namespace Sys2Proof.Machine

/-- LD BC,d16 (R130). -/
def execLdBCd16 (d16 : Word) (s : State) : Host.Outcome State Fault Refusal :=
  retire 3 12 (s.loadPair .BC d16)

/-- LD DE,d16 (R131). -/
def execLdDEd16 (d16 : Word) (s : State) : Host.Outcome State Fault Refusal :=
  retire 3 12 (s.loadPair .DE d16)

/-- LD HL,d16 (R132). -/
def execLdHLd16 (d16 : Word) (s : State) : Host.Outcome State Fault Refusal :=
  retire 3 12 (s.loadPair .HL d16)

/-- LD B,d8 (R133). -/
def execLdBd8 (d8 : Byte) (s : State) : Host.Outcome State Fault Refusal :=
  retire 2 8 (s.loadReg .B d8)

/-- LD C,d8 (R134). -/
def execLdCd8 (d8 : Byte) (s : State) : Host.Outcome State Fault Refusal :=
  retire 2 8 (s.loadReg .C d8)

/-- LD D,d8 (R135). -/
def execLdDd8 (d8 : Byte) (s : State) : Host.Outcome State Fault Refusal :=
  retire 2 8 (s.loadReg .D d8)

/-- LD E,d8 (R136). -/
def execLdEd8 (d8 : Byte) (s : State) : Host.Outcome State Fault Refusal :=
  retire 2 8 (s.loadReg .E d8)

/-- LD H,d8 (R137). -/
def execLdHd8 (d8 : Byte) (s : State) : Host.Outcome State Fault Refusal :=
  retire 2 8 (s.loadReg .H d8)

/-- LD L,d8 (R138). -/
def execLdLd8 (d8 : Byte) (s : State) : Host.Outcome State Fault Refusal :=
  retire 2 8 (s.loadReg .L d8)

/-- LD A,d8 (R139). -/
def execLdAd8 (d8 : Byte) (s : State) : Host.Outcome State Fault Refusal :=
  retire 2 8 (s.loadReg .A d8)

/-- The placeholder load at 0x0A (R140): A gets the byte at pc + 1; BC plays no part. With length 1 that byte
is also the next opcode (R272). -/
def execLdAPh0A (ph : Byte) (s : State) : Host.Outcome State Fault Refusal :=
  retire (phLen s.config.ldaPhLen0A) 8 (s.loadReg .A ph)

/-- The placeholder load at 0x1A (R141): A gets the byte at pc + 1; DE plays no part. -/
def execLdAPh1A (ph : Byte) (s : State) : Host.Outcome State Fault Refusal :=
  retire (phLen s.config.ldaPhLen1A) 8 (s.loadReg .A ph)

end Sys2Proof.Machine
end

