-- ==== Sys2Proof/Machine/Rotates.lean ====
section
/-! DEFINITION. The accumulator rotates (spec/45_rotates.md R190 to R194). A and the old carry are read before either is
written. -/

namespace Sys2Proof.Machine

/-- RLCA (R190): bit 7 goes into bit 0 and into C. -/
def execRlca (s : State) : Host.Outcome State Fault Refusal :=
  retire 1 4 (s.rotated (shiftLeftIn s.a (s.a.getLsbD 7)) (s.a.getLsbD 7))

/-- RRCA (R191): bit 0 goes into bit 7 and into C. -/
def execRrca (s : State) : Host.Outcome State Fault Refusal :=
  retire 1 4 (s.rotated (shiftRightIn s.a (s.a.getLsbD 0)) (s.a.getLsbD 0))

/-- RLA (R192): the old C goes into bit 0, bit 7 into C. -/
def execRla (s : State) : Host.Outcome State Fault Refusal :=
  retire 1 4 (s.rotated (shiftLeftIn s.a (flagC s.f)) (s.a.getLsbD 7))

/-- RRA (R193): the old C goes into bit 7, bit 0 into C. -/
def execRra (s : State) : Host.Outcome State Fault Refusal :=
  retire 1 4 (s.rotated (shiftRightIn s.a (flagC s.f)) (s.a.getLsbD 0))

end Sys2Proof.Machine
end

