-- ==== Sys2Proof/Machine/Stores.lean ====
section
/-! DEFINITION. The stores (spec/43_stores.md R150 to R152), the only instructions that write memory. None touches a
flag. -/

namespace Sys2Proof.Machine

/-- LD (BC),A (R150). -/
def execLdIndBCA (s : State) : Host.Outcome State Fault Refusal :=
  storeAndRetire (s.indirect .BC) [s.reg .A] 1 8 s

/-- LD (DE),A (R151). -/
def execLdIndDEA (s : State) : Host.Outcome State Fault Refusal :=
  storeAndRetire (s.indirect .DE) [s.reg .A] 1 8 s

/-- LD (a16),SP (R152): one 2-byte write, checked whole. -/
def execLdIndA16SP (a16 : Word) (s : State) : Host.Outcome State Fault Refusal :=
  storeAndRetire a16 s.spBytes 3 20 s

end Sys2Proof.Machine
end

