-- ==== Sys2Proof/Machine/Dispatch.lean ====
section
/-! DEFINITION. The dispatch of spec/40_engine.md R106 from an instruction to its effect: one arm per row of
spec/30_encoding.md R66. -/

namespace Sys2Proof.Machine

def exec (i : Instr) (s : State) : Host.Outcome State Fault Refusal :=
  match i with
  | .nop => Sys2Proof.Machine.execNop s
  | .ldBCd16 d16 => Sys2Proof.Machine.execLdBCd16 d16 s
  | .ldIndBCA => Sys2Proof.Machine.execLdIndBCA s
  | .incBC => Sys2Proof.Machine.execIncBC s
  | .incB => Sys2Proof.Machine.execIncB s
  | .decB => Sys2Proof.Machine.execDecB s
  | .ldBd8 d8 => Sys2Proof.Machine.execLdBd8 d8 s
  | .rlca => Sys2Proof.Machine.execRlca s
  | .ldIndA16SP a16 => Sys2Proof.Machine.execLdIndA16SP a16 s
  | .addHLBC => Sys2Proof.Machine.execAddHLBC s
  | .ldAPh0A ph => Sys2Proof.Machine.execLdAPh0A ph s
  | .decBC => Sys2Proof.Machine.execDecBC s
  | .incC => Sys2Proof.Machine.execIncC s
  | .decC => Sys2Proof.Machine.execDecC s
  | .ldCd8 d8 => Sys2Proof.Machine.execLdCd8 d8 s
  | .rrca => Sys2Proof.Machine.execRrca s
  | .stop => Sys2Proof.Machine.execStop s
  | .ldDEd16 d16 => Sys2Proof.Machine.execLdDEd16 d16 s
  | .ldIndDEA => Sys2Proof.Machine.execLdIndDEA s
  | .incDE => Sys2Proof.Machine.execIncDE s
  | .incD => Sys2Proof.Machine.execIncD s
  | .decD => Sys2Proof.Machine.execDecD s
  | .ldDd8 d8 => Sys2Proof.Machine.execLdDd8 d8 s
  | .rla => Sys2Proof.Machine.execRla s
  | .ldAPh1A ph => Sys2Proof.Machine.execLdAPh1A ph s
  | .decDE => Sys2Proof.Machine.execDecDE s
  | .incE => Sys2Proof.Machine.execIncE s
  | .decE => Sys2Proof.Machine.execDecE s
  | .ldEd8 d8 => Sys2Proof.Machine.execLdEd8 d8 s
  | .rra => Sys2Proof.Machine.execRra s
  | .ldHLd16 d16 => Sys2Proof.Machine.execLdHLd16 d16 s
  | .incHL => Sys2Proof.Machine.execIncHL s
  | .incH => Sys2Proof.Machine.execIncH s
  | .decH => Sys2Proof.Machine.execDecH s
  | .ldHd8 d8 => Sys2Proof.Machine.execLdHd8 d8 s
  | .decHL => Sys2Proof.Machine.execDecHL s
  | .incL => Sys2Proof.Machine.execIncL s
  | .decL => Sys2Proof.Machine.execDecL s
  | .ldLd8 d8 => Sys2Proof.Machine.execLdLd8 d8 s
  | .incA => Sys2Proof.Machine.execIncA s
  | .decA => Sys2Proof.Machine.execDecA s
  | .ldAd8 d8 => Sys2Proof.Machine.execLdAd8 d8 s
  | .halt => Sys2Proof.Machine.execHalt s

end Sys2Proof.Machine
end

