-- ==== Sys2Proof/Machine/Fetch.lean ====
section
/-! DEFINITION. Fetching an instruction (spec/40_engine.md R103, spec/60_exceptions.md R235): the opcode byte
at pc, its dispatch, then its immediate; the first of the three that raises gives the error. -/

namespace Sys2Proof.Machine

/-- Reads the immediate a row asks for. STOP's pad byte is not read (spec/30_encoding.md R68). -/
def readImmediate (row : Row) (s : State) : Except FatalError Instr :=
  match row with
  | .op i => .ok i
  | .opPad i => .ok i
  | .opD8 mk =>
    match s.readD8 with
    | .ok d => .ok (mk d)
    | .error err => .error err
  | .opD16 mk =>
    match s.readD16 with
    | .ok v => .ok (mk v)
    | .error err => .error err

/-- The instruction at pc, or the error of R235: the opcode fetch (1), the dispatch (2), the immediate (3). -/
def fetch (s : State) : Except FatalError Instr :=
  match s.mem.load8 s.pc with
  | .error err => .error err
  | .ok op =>
    match dispatch op with
    | none => .error (.unimplementedOpcode op s.pc)
    | some row => readImmediate row s

/-- The bytes of the store that an instruction at `pc` can read, as a list for `decode`: at most three, none
from outside the store. -/
def bytesAt (m : Memory) (pc : Word) : List Byte :=
  ((List.range 3).filter (fun k => inStore (pc.toNat + k) 1)).map (fun k => m.read (pc.toNat + k))

end Sys2Proof.Machine
end

