-- ==== Sys2Proof/Machine/Clock.lean ====
section
/-! DEFINITION. The clock without real time (spec/47_clock.md R210 to R213, R216, R218, R219). -/

namespace Sys2Proof.Machine

/-- `start()` (R212): once started, always started (R219); a second start has no effect. -/
def State.startClock (s : State) : State := { s with clockStarted := true }

/-- The clock agent's one step (R213): enabled once the clock is started, it adds 1 and writes nothing else,
whatever the CPU does. Before `start()` there is no tick. -/
def State.tick (s : State) : State :=
  if s.clockStarted then { s with totalCycles := s.totalCycles + 1 } else s

/-- `read_total_cycles()` (R216): the counter's present value; nothing changes. -/
def State.readTotalCycles (s : State) : Nat := s.totalCycles

/-- The pacing gate (spec/40_engine.md R102): strictly greater. -/
def State.gateOpen (s : State) : Bool := decide (s.readTotalCycles > s.cycleCount)

end Sys2Proof.Machine
end

