-- ==== Sys2Proof/Machine/HostPort.lean ====
section
/-! DEFINITION. Construction (spec/70_reset_and_hazards.md R260 to R263) and the host's moves (R266 to R268;
spec/40_engine.md R100). How they enter a run: log entry 11. -/

namespace Sys2Proof.Machine

/-- A store of zeros, in canonical form: the one address that an unlisted cell does not give as zero is
listed. -/
def zeroMemory : Memory := Memory.write [] defaultConfig.haltSeedAddr.toNat 0x00#8

/-- Writes an image's cells in order, leaving out what is outside the store. -/
def Memory.writeImage (m : Memory) (image : List Host.Cell) : Memory :=
  match image with
  | [] => m
  | (x, v) :: rest =>
    Memory.writeImage (if inStore x 1 then m.write x v else m) rest

/-- `INIT_MEM` with the HALT seed on top (R261, R262). `image` lists `INIT_MEM`'s bytes that are not zero. -/
def bootMemory (c : Config) (image : List Host.Cell) : Memory :=
  (zeroMemory.writeImage image).write c.haltSeedAddr.toNat haltSeedByte

/-- `new(frequency_hz)` (R260; spec/47_clock.md R211; spec/60_exceptions.md R233) with the other OPEN
parameters of spec/00_scope.md R6 as arguments. -/
def construct (c : Config) (image : List Host.Cell) : Host.Outcome State Fault Refusal :=
  if c.freqHz = 0#32 then .fault .invalidConfiguration
  else .next { State.reset with config := c, mem := bootMemory c image }

/-- A write of the host before `run()` (R266). A store write outside the store fails fatally, so it latches
the error (log entry 11). -/
def State.hostWrite (s : State) (a : HostAction) : State :=
  match a with
  | .writeReg r v => s.setReg r v
  | .writePair p v => s.setPair p v
  | .setPc v => { s with pc := v }
  | .setSp v => { s with sp := v }
  | .writeMem addr bytes =>
    match s.mem.store addr bytes with
    | .ok m => { s with mem := m }
    | .error err => s.raise err
  | .run => s

/-- `run()` (spec/40_engine.md R100; spec/47_clock.md R212): the clock is started if it is not, and the CPU
may step; on a halted or faulted machine no step follows (R109), so the run is over at once. -/
def State.hostRun (s : State) : State :=
  { s.startClock with runActive := !s.ended }

/-- A move of the host: none during a run (R267), writes and `run()` before it (R266), nothing but another
`run()` after it (R268, R109). -/
def State.hostMove (s : State) (a : HostAction) : State :=
  if s.runActive then s
  else if a = .run then s.hostRun
  else if s.ended then s
  else s.hostWrite a

end Sys2Proof.Machine
end

