-- ==== Sys2Proof/Machine/Engine.lean ====
section
/-! DEFINITION. The engine (spec/40_engine.md): one step of the CPU, the gate, and the move of each agent. -/

namespace Sys2Proof.Machine

/-- `Execute` (R104), the body of `RunStep` (R103) with no gate test: the instruction at pc is fetched and its
effect applied; an error of the fetch is raised. -/
def execute (s : State) : Host.Outcome State Fault Refusal :=
  match fetch s with
  | .ok i => exec i s
  | .error err => .next (s.raise err)

/-- One poll of the CPU agent (R101, R102): with no step enabled, or with the gate closed, nothing changes;
otherwise one `RunStep`, and the loop test after it. -/
def poll (s : State) : Host.Outcome State Fault Refusal :=
  if s.cpuEnabled && s.gateOpen then mapNext State.leaveRunIfHalted (execute s)
  else .next s

/-- The move of one agent (R100). -/
def move (m : Move) (s : State) : Host.Outcome State Fault Refusal :=
  match m with
  | .clock => .next s.tick
  | .cpu => poll s
  | .host a => .next (s.hostMove a)

/-- Makes the CPU's next poll run an instruction: the run is active and not over, the clock has passed
`cycle_count`, and the next move is the CPU's. -/
def State.readyToRun (s : State) : State :=
  { s with
    halted := false
    fault := none
    runActive := true
    clockStarted := true
    totalCycles := max s.totalCycles (s.cycleCount + 1)
    schedule := .cpu :: s.schedule }

/-- Places bytes at `addr` and up, as far as the store reaches. -/
def Memory.place (m : Memory) (addr : Nat) (bytes : List Byte) : Memory :=
  match bytes with
  | [] => m
  | v :: rest => Memory.place (if inStore addr 1 then m.write addr v else m) (addr + 1) rest

end Sys2Proof.Machine
end

