-- ==== Sys2Proof/Machine/Step.lean ====
section
/-! DEFINITION. One step of the machine: the move of one agent, and where a test places an instruction. -/

namespace Sys2Proof.Machine

/-- One agent moves (spec/40_engine.md R100). -/
def step (s : State) : Host.Outcome State Fault Refusal :=
  mapNext State.advanceSchedule (move s.nextMove s)

/-- `s` with an instruction of the opcode table stored at pc and the CPU about to run it (log entry 14). -/
def State.withFetchWord (s : State) (nbits w : Nat) : State :=
  { s.readyToRun with mem := s.mem.place s.pc.toNat (tableBytes nbits w) }

end Sys2Proof.Machine
end

