-- ==== Sys2Proof/Machine/RealTime.lean ====
section
/-! DEFINITION. The pacing loop of spec/47_clock.md R214 with a time source, beside State: its deadline is not
architectural state (spec/10_state.md R26), and no instruction depends on it (R218; log entry 12). Times are
exact rationals in nanoseconds. What the rendering chooses where the spec leaves it open: log entry 18. -/

namespace Sys2Proof.Machine

/-- A clock with a time source (R211, R212, R214). -/
structure RealClock where
  freqHz : BitVec 32
  started : Bool
  /-- The instant of `start()`; 0 before it (DESIGN CHOICE, log entry 18). -/
  startTime : Rat
  /-- No tick happens before it; 0 before `start()` (DESIGN CHOICE, log entry 18). -/
  deadline : Rat
  totalCycles : Nat
  deriving DecidableEq, Repr

/-- `PERIOD = 10^9 / FREQ_HZ`, exact (R211). DESIGN CHOICE (log entry 18): `FREQ_HZ > 0` is a precondition, so
the 0 that Lean's division gives at frequency 0 stands for nothing. -/
def periodNs (freqHz : BitVec 32) : Rat := 1000000000 / (freqHz.toNat : Rat)

/-- `new(frequency_hz)` (R211). DESIGN CHOICES (log entry 18): `FREQ_HZ > 0` is a precondition here, the
second of the two renderings that spec/93, U3 allows (`construct` is the first: it answers `InvalidConfiguration`
for 0); and `startTime` and `deadline` are 0 until `start()`, which the spec gives no value before and which
nothing reads before. -/
def RealClock.new (freqHz : BitVec 32) : RealClock where
  freqHz := freqHz
  started := false
  startTime := 0
  deadline := 0
  totalCycles := 0

/-- `start()` at time `now` (R212, R214); a second start has no effect. -/
def RealClock.start (k : RealClock) (now : Rat) : RealClock :=
  if k.started then k else { k with started := true, startTime := now, deadline := now }

/-- One look of the pacing loop at time `now` (R214): when real time has reached the deadline the counter goes
up by one and the deadline by exactly one period. -/
def RealClock.pass (k : RealClock) (now : Rat) : RealClock :=
  if k.started ∧ k.deadline ≤ now then
    { k with totalCycles := k.totalCycles + 1, deadline := k.deadline + periodNs k.freqHz }
  else k

/-- The pacing loop over the times at which it looks. -/
def RealClock.passes (k : RealClock) (times : List Rat) : RealClock :=
  match times with
  | [] => k
  | now :: rest => RealClock.passes (k.pass now) rest

end Sys2Proof.Machine
end

