-- ==== Sys2Proof/WellFormed.lean ====
section
/-! DEFINITION. What must hold of a machine's parameters and of an instruction placed in the store. Every
term of `Instr` alone is well formed: each immediate has exactly the bits its encoding has (R62, R63). -/

namespace Sys2Proof

/-- The constraints of spec/00_scope.md R6 on the OPEN parameters: `FREQ_HZ > 0` (R211, R233) and
`0x0100 <= HALT_SEED_ADDR <= 0xFFFE` (R262). -/
def Config.wellFormed (c : Config) : Bool :=
  decide (c.freqHz ≠ 0#32) && decide (0x0100 ≤ c.haltSeedAddr.toNat) &&
    decide (c.haltSeedAddr.toNat ≤ 0xFFFE)

/-- An instruction placed at `pc` is well formed when no byte it reads lies outside the store
(spec/70_reset_and_hazards.md R273; the bytes it reads are those of `encode`, spec/20_memory.md R47). -/
def Instr.wellFormedAt (pc : Word) (i : Instr) : Bool :=
  decide (pc.toNat + (encode i).length ≤ Machine.memSize)

end Sys2Proof
end

