-- ==== Sys2Proof/Safety.lean ====
section
/-! DEFINITION. The words the statements are written in: what an instruction leaves unchanged, the invariant of
every step, weak fairness, the spec's opcode lists, and the part of the state that no schedule changes. -/

namespace Sys2Proof.Safety

open Sys2Proof.Machine

/-! ### Frames -/

/-- Everything but the eight cells, pc, memory and cycle_count is as before. -/
structure KeepsSystem (s t : State) : Prop where
  sp : t.sp = s.sp
  halted : t.halted = s.halted
  stopped : t.stopped = s.stopped
  fault : t.fault = s.fault
  runActive : t.runActive = s.runActive
  totalCycles : t.totalCycles = s.totalCycles
  clockStarted : t.clockStarted = s.clockStarted
  config : t.config = s.config
  schedule : t.schedule = s.schedule
  turn : t.turn = s.turn

/-- Every register cell but those of the list is as before; F is one of the cells. -/
def KeepsRegs (written : List Reg) (s t : State) : Prop := ∀ r, r ∉ written → t.reg r = s.reg r

/-- Every byte of memory reads as before. -/
def KeepsMemory (s t : State) : Prop := ∀ addr, t.mem.read addr = s.mem.read addr

/-- Every byte of memory outside the `n` bytes from `addr` on reads as before. -/
def KeepsMemoryBeside (addr n : Nat) (s t : State) : Prop :=
  ∀ x, x < addr ∨ addr + n ≤ x → t.mem.read x = s.mem.read x

/-- The frame of an instruction that stores nothing: only the cells of the list, pc and cycle_count may
change. -/
structure Frame (written : List Reg) (s t : State) : Prop where
  regs : KeepsRegs written s t
  memory : KeepsMemory s t
  system : KeepsSystem s t

/-- pc has moved by `len` modulo 65,536 and `cost` has been added (spec/40_engine.md R103). -/
structure Retires (len cost : Nat) (s t : State) : Prop where
  pc : t.pc = s.pc + BitVec.ofNat 16 len
  cycleCount : t.cycleCount = s.cycleCount + cost

/-- The four flags, and the low nibble of F as before (spec/10_state.md R12, R13). -/
structure FlagsAre (z n h c : Bool) (s t : State) : Prop where
  zero : flagZ t.f = z
  subtract : flagN t.f = n
  halfCarry : flagH t.f = h
  carry : flagC t.f = c
  lowNibble : t.f &&& 0x0F#8 = s.f &&& 0x0F#8

/-! ### The opcode lists of the spec -/

/-- The 43 bytes of spec/30_encoding.md R66, in the order of its table. -/
def implemented : List Byte :=
  [0x00#8, 0x01#8, 0x02#8, 0x03#8, 0x04#8, 0x05#8, 0x06#8, 0x07#8, 0x08#8, 0x09#8, 0x0A#8, 0x0B#8,
   0x0C#8, 0x0D#8, 0x0E#8, 0x0F#8, 0x10#8, 0x11#8, 0x12#8, 0x13#8, 0x14#8, 0x15#8, 0x16#8, 0x17#8,
   0x1A#8, 0x1B#8, 0x1C#8, 0x1D#8, 0x1E#8, 0x1F#8, 0x21#8, 0x23#8, 0x24#8, 0x25#8, 0x26#8, 0x2B#8,
   0x2C#8, 0x2D#8, 0x2E#8, 0x3C#8, 0x3D#8, 0x3E#8, 0x76#8]

/-- The opcodes that read d8: LD r8,d8 and the placeholder loads (spec/20_memory.md R47). -/
def d8Opcodes : List Byte :=
  [0x06#8, 0x0E#8, 0x16#8, 0x1E#8, 0x26#8, 0x2E#8, 0x3E#8, 0x0A#8, 0x1A#8]

/-- The opcodes that read d16 or a16 (R47). -/
def d16Opcodes : List Byte := [0x01#8, 0x11#8, 0x21#8, 0x08#8]

/-- The opcodes that may change a flag (spec/10_state.md R15): INC r8, DEC r8, the rotates, ADD HL,BC. -/
def flagOpcodes : List Byte :=
  [0x04#8, 0x0C#8, 0x14#8, 0x1C#8, 0x24#8, 0x2C#8, 0x3C#8, 0x05#8, 0x0D#8, 0x15#8, 0x1D#8, 0x25#8,
   0x2D#8, 0x3D#8, 0x07#8, 0x0F#8, 0x17#8, 0x1F#8, 0x09#8]

/-- The byte at pc. -/
def opcodeAt (s : State) : Byte := s.mem.read s.pc.toNat

/-- The two bytes after the opcode as a little-endian value, at a pc below 0xFFFD (R63). -/
def immediateAt (s : State) : Word :=
  joinBytes (s.mem.read (s.pc.toNat + 2)) (s.mem.read (s.pc.toNat + 1))

/-- The table of spec/60_exceptions.md R232: the cause of a bounds violation and the record it leaves. -/
inductive BoundsCause (s : State) : Nat → Nat → Prop where
  | opcodeFetch : s.pc = 0xFFFF#16 → BoundsCause s 0xFFFF 1
  | readD8 : s.pc = 0xFFFE#16 → opcodeAt s ∈ d8Opcodes → BoundsCause s 0xFFFF 1
  | readD16 : s.pc = 0xFFFD#16 ∨ s.pc = 0xFFFE#16 → opcodeAt s ∈ d16Opcodes →
      BoundsCause s (s.pc.toNat + 1) 2
  | storeBC : s.pc ≠ 0xFFFF#16 → opcodeAt s = 0x02#8 → s.pair .BC = 0xFFFF#16 → BoundsCause s 0xFFFF 1
  | storeDE : s.pc ≠ 0xFFFF#16 → opcodeAt s = 0x12#8 → s.pair .DE = 0xFFFF#16 → BoundsCause s 0xFFFF 1
  | storeSP : s.pc.toNat < 0xFFFD → opcodeAt s = 0x08#8 →
      immediateAt s = 0xFFFE#16 ∨ immediateAt s = 0xFFFF#16 →
      BoundsCause s (immediateAt s).toNat 2

/-! ### The invariant of every step -/

/-- What every step keeps, from any state that has it. -/
structure Inv (s : State) : Prop where
  /-- Memory is in canonical form. -/
  memory : s.mem.wf = true
  /-- Bits 3 to 0 of F are zero (spec/10_state.md R13). -/
  flagNibble : s.f &&& 0x0F#8 = 0x00#8
  /-- The CPU is ahead of the clock by less than one instruction's cost (spec/40_engine.md R105). -/
  counters : s.cycleCount ≤ s.totalCycles + 19
  /-- A run that has ended is not active (spec/40_engine.md R101); that no state halts first and leaves the run
  later is DEDUCED (log entry 4). -/
  endedInactive : s.ended = true → s.runActive = false
  /-- An active run has its clock started (R100; spec/47_clock.md R212). -/
  activeStarted : s.runActive = true → s.clockStarted = true
  /-- Before the clock is started neither counter has moved and no instruction has stopped or halted. -/
  beforeStart : s.clockStarted = false →
    s.totalCycles = 0 ∧ s.cycleCount = 0 ∧ s.halted = false ∧ s.stopped = false
  /-- The parameters are legal (spec/00_scope.md R6). -/
  parameters : s.config.wellFormed = true

/-! ### What no schedule changes -/

/-- The state without the clock's counter and without the schedule: what spec/40_engine.md R112 calls the
architectural state. -/
def architectural (s : State) : State := { s with totalCycles := 0, schedule := [], turn := 0 }

/-- A move of the clock or of the CPU, not of the host. -/
def isAgentMove (m : Move) : Prop := m = .clock ∨ m = .cpu

/-- Some number of steps from `s` reaches a state with the property. -/
def Eventually (p : State → Prop) (s : State) : Prop :=
  ∃ (k : Nat) (t : State), Host.Core.run core k s = .next t ∧ p t

/-- Weak fairness (spec/47_clock.md R217): from `s` on the clock agent gets its turn and the CPU polls. Held by
every state, it says that each does so infinitely often. -/
def WeaklyFair (s : State) : Prop :=
  Eventually (fun t => t.nextMove = .clock) s ∧ Eventually (fun t => t.nextMove = .cpu) s

/-- Two states agree on all that `Execute` may read (R104): the register cells, pc, sp, memory, cycle_count
and the parameters. -/
structure AgreeOnProgram (s t : State) : Prop where
  regs : ∀ r, t.reg r = s.reg r
  pc : t.pc = s.pc
  sp : t.sp = s.sp
  mem : t.mem = s.mem
  cycleCount : t.cycleCount = s.cycleCount
  config : t.config = s.config

/-! ### Construction -/

/-- The byte of `INIT_MEM` at an address: the last cell of the image for it, else zero. -/
def imageByte (image : List Host.Cell) (addr : Nat) : Byte :=
  match image with
  | [] => 0x00#8
  | (x, v) :: rest =>
    if rest.any (fun cell => cell.1 == addr) then imageByte rest addr
    else if x = addr then v else 0x00#8

end Sys2Proof.Safety
end

