-- ==== Sys2Proof/Certificates/Slice0/Obligations.lean ====
section
/-! DEFINITION. The statements for the provers, drawn from the numbered rules of spec/. -/

open Sys2Proof Sys2Proof.Machine Sys2Proof.Safety

/-! ### Encoding and decoding -/

/-- Decoding the bytes of any instruction, whatever follows them, gives it back (spec/30_encoding.md, sections
1 to 4). -/
def Obligations.DecodeOfEncode : Prop :=
  ∀ (i : Instr) (rest : List Byte), decode (encode i ++ rest) = .ok i

/-- A byte list that decodes begins with exactly the encoding of what it decodes to. -/
def Obligations.DecodedBytesAreEncoding : Prop :=
  ∀ (bytes : List Byte) (i : Instr), decode bytes = .ok i → ∃ rest, bytes = encode i ++ rest

/-- Words written out from the encodings of spec/30_encoding.md R66, at least one of each family, decode to the
instructions they stand for. The bytes but for 0x00, 0x01 and 0x76 are the spec's general knowledge (log
entry 8). -/
def Obligations.SpecWordsDecode : Prop :=
  decode [0x00#8] = .ok .nop ∧
  decode [0x10#8, 0xD3#8] = .ok .stop ∧
  decode [0x76#8] = .ok .halt ∧
  decode [0x01#8, 0xEF#8, 0xBE#8] = .ok (.ldBCd16 0xBEEF#16) ∧
  decode [0x3E#8, 0x42#8] = .ok (.ldAd8 0x42#8) ∧
  decode [0x0A#8, 0x3C#8] = .ok (.ldAPh0A 0x3C#8) ∧
  decode [0x12#8] = .ok .ldIndDEA ∧
  decode [0x08#8, 0x00#8, 0xD0#8] = .ok (.ldIndA16SP 0xD000#16) ∧
  decode [0x23#8] = .ok .incHL ∧
  decode [0x1B#8] = .ok .decDE ∧
  decode [0x2C#8] = .ok .incL ∧
  decode [0x05#8] = .ok .decB ∧
  decode [0x1F#8] = .ok .rra ∧
  decode [0x09#8] = .ok .addHLBC

/-- Fetching any byte but the 43 as an opcode raises `UnimplementedOpcode` with the byte and its address, and
nothing else raises it (spec/60_exceptions.md R231; spec/30_encoding.md R67). Which bytes are the 43 is the
spec's general knowledge but for three of them (PRESUMED, log entry 8). -/
def Obligations.UnimplementedOpcodeExactly : Prop :=
  implemented.length = 43 ∧ implemented.Nodup ∧
  ∀ (s : State) (op : Byte) (at_ : Word),
    execute s = .next (s.raise (.unimplementedOpcode op at_)) ↔
      (s.pc ≠ 0xFFFF#16 ∧ at_ = s.pc ∧ op = opcodeAt s ∧ op ∉ implemented)

/-- The decoder answers on every byte, with one of the 43 rows or "unimplemented", and needs no further byte to
choose; the length and the cost are functions of it (spec/30_encoding.md R71). Which bytes are the 43 is the
spec's general knowledge but for three of them (PRESUMED, log entry 8). -/
def Obligations.DispatchTotalOnBytes : Prop :=
  ∀ (op : Byte) (rest : List Byte),
    (op ∈ implemented ↔ (dispatch op).isSome = true) ∧
    (op ∉ implemented ↔ decode (op :: rest) = .error (.unimplementedOpcode op)) ∧
    (∀ i, decode (op :: rest) = .ok i → i.opcode = op) ∧
    ∀ c : Config, ∃ row : Byte → Nat × Nat, ∀ i : Instr, (i.length c, i.cost) = row i.opcode

/-! ### Fetch and step -/

/-- A step whose next move is the CPU's, with a step enabled and the gate open, runs the instruction that the
bytes at pc decode to (spec/40_engine.md, sections 2 and 3). Around `exec` it does two things that are the
model's: it leaves the run in the same step when halted (DEDUCED, log entry 4) and advances the schedule (DESIGN
CHOICE, log entry 2). -/
def Obligations.StepRunsDecodedInstruction : Prop :=
  ∀ (s : State) (i : Instr), s.nextMove = .cpu → s.cpuEnabled = true → s.gateOpen = true →
    decode (bytesAt s.mem s.pc) = .ok i → i.wellFormedAt s.pc = true →
    step s = mapNext State.advanceSchedule (mapNext State.leaveRunIfHalted (exec i s))

/-- The fetch, which reads the opcode and then its immediate by checked accesses, gives an instruction exactly
when the bytes of the store at pc decode to it; that instruction lies inside the store. -/
def Obligations.FetchAgreesWithDecode : Prop :=
  ∀ (s : State) (i : Instr),
    (fetch s = .ok i ↔ decode (bytesAt s.mem s.pc) = .ok i) ∧
    (fetch s = .ok i → i.wellFormedAt s.pc = true)

/-- The table of spec/60_exceptions.md, section 1 (R232): one execution raises a bounds violation in exactly
the listed cases, with exactly the listed record. The cases name their opcodes by bytes of log entry 8. -/
def Obligations.BoundsViolationTable : Prop :=
  ∀ (s : State) (addr n : Nat),
    execute s = .next (s.raise (.memoryBoundsViolation addr n)) ↔ BoundsCause s addr n

/-- Errors are precise (spec/60_exceptions.md, section 2): every execution either retires, with no error, or
raises, and then only the latch and `run_active` differ from before. -/
def Obligations.ErrorsArePrecise : Prop :=
  ∀ s : State, ∃ t, execute s = .next t ∧
    ((t.fault = s.fault ∧ t.runActive = s.runActive ∧ s.cycleCount < t.cycleCount) ∨
      ∃ err, t = { s with fault := some err, runActive := false })

/-- `Execute` is total, and what it computes depends on nothing but the program's own state: not on the clock,
`halted`, `stopped`, `run_active` or `fault` (spec/40_engine.md, section 3). Whether it sets `halted` or
`stopped` is part of what it computes. -/
def Obligations.ExecuteReadsProgramStateOnly : Prop :=
  ∀ s s' : State, AgreeOnProgram s s' →
    ∃ t t', execute s = .next t ∧ execute s' = .next t' ∧ AgreeOnProgram t t' ∧
      (∃ halts stops : Bool, t.halted = (s.halted || halts) ∧ t'.halted = (s'.halted || halts) ∧
        t.stopped = (s.stopped || stops) ∧ t'.stopped = (s'.stopped || stops)) ∧
      ∀ err, t = s.raise err ↔ t' = s'.raise err

/-- The cost table (spec/40_engine.md R107): every instruction that retires adds the cost of its family's row.
The families are named by their opcode bytes, which are the spec's general knowledge but for three of them
(PRESUMED, log entry 8). -/
def Obligations.CostTable : Prop :=
  ∀ (i : Instr) (s t : State), exec i s = .next t →
    (∃ err, t = s.raise err) ∨
    (i.opcode ∈ [0x00#8, 0x04#8, 0x0C#8, 0x14#8, 0x1C#8, 0x24#8, 0x2C#8, 0x3C#8, 0x05#8, 0x0D#8, 0x15#8,
        0x1D#8, 0x25#8, 0x2D#8, 0x3D#8, 0x07#8, 0x0F#8, 0x17#8, 0x1F#8, 0x10#8, 0x76#8] ∧
      t.cycleCount = s.cycleCount + 4) ∨
    (i.opcode ∈ [0x02#8, 0x12#8, 0x03#8, 0x13#8, 0x23#8, 0x0B#8, 0x1B#8, 0x2B#8, 0x06#8, 0x0E#8, 0x16#8,
        0x1E#8, 0x26#8, 0x2E#8, 0x3E#8, 0x09#8, 0x0A#8, 0x1A#8] ∧ t.cycleCount = s.cycleCount + 8) ∨
    (i.opcode ∈ [0x01#8, 0x11#8, 0x21#8] ∧ t.cycleCount = s.cycleCount + 12) ∨
    (i.opcode = 0x08#8 ∧ t.cycleCount = s.cycleCount + 20)

/-- What the dispatcher declares for a row is what its instruction does: an instruction that does not raise
moves pc by its declared length and adds its declared cost (spec/40_engine.md, section 4). -/
def Obligations.DeclaredLengthAndCost : Prop :=
  ∀ (i : Instr) (s t : State), exec i s = .next t →
    (∃ err, t = s.raise err) ∨ Retires (i.length s.config) i.cost s t

/-! ### Control: NOP, STOP, HALT -/

/-- R120: NOP, byte 0x00, leaves everything but pc and cycle_count; pc moves by 1, the cost is 4. -/
def Obligations.NopCompletes : Prop :=
  ∀ s : State, encode .nop = [0x00#8] ∧
    ∃ t, exec .nop s = .next t ∧ Frame [] s t ∧ Retires 1 4 s t

/-- STOP sets the stopped flag and nothing else, is two bytes long, does not read its second byte, and does not
gate the run (spec/41_control.md; the byte value is the spec's general knowledge, log entry 8). -/
def Obligations.StopCompletes : Prop :=
  ∀ s : State, encode .stop = [0x10#8] ∧
    (s.pc ≠ 0xFFFF#16 → opcodeAt s = 0x10#8 → fetch s = .ok .stop) ∧
    ∃ t, exec .stop s = .next t ∧ t.stopped = true ∧ Retires 2 4 s t ∧ t.cpuEnabled = s.cpuEnabled ∧
      t = { s with stopped := true, pc := t.pc, cycleCount := t.cycleCount }

/-- HALT, byte 0x76, sets halted; pc moves by 1 and the cost is 4 in the halting step; in the state after it the
CPU agent has no step (spec/41_control.md R122; spec/40_engine.md, section 5). That the loop test which follows in
the same poll leaves the run is DEDUCED (log entry 4), and so is what one action of the host, `run()` among them,
does then: it gives the CPU no step (log entry 11). That none comes ever after is EndIsForever. -/
def Obligations.HaltCompletes : Prop :=
  ∀ s : State, encode .halt = [0x76#8] ∧
    ∃ t, exec .halt s = .next t ∧ t.halted = true ∧ Retires 1 4 s t ∧ t.cpuEnabled = false ∧
      t.leaveRunIfHalted.runActive = false ∧
      (∀ a, (t.leaveRunIfHalted.hostMove a).cpuEnabled = false) ∧
      t = { s with halted := true, pc := t.pc, cycleCount := t.cycleCount }

/-! ### Loads -/

/-- LD r16,d16 for BC, DE and HL (spec/42_loads.md, section 1): the immediate is the two bytes after the
opcode, low byte first; it goes into the pair, high byte into the first register; no flag and no other cell
changes; a read of the immediate outside the store raises. -/
def Obligations.LoadPairImmediate : Prop :=
  ∀ (mk : Word → Instr) (p : Pair) (op : Byte),
    (mk, p, op) ∈ [(Instr.ldBCd16, Pair.BC, 0x01#8), (Instr.ldDEd16, Pair.DE, 0x11#8),
      (Instr.ldHLd16, Pair.HL, 0x21#8)] →
    ∀ s : State,
      (∀ v, ∃ t, exec (mk v) s = .next t ∧ t.pair p = v ∧
        t.reg (pairHigh p) = v.extractLsb' 8 8 ∧ t.reg (pairLow p) = v.extractLsb' 0 8 ∧
        Frame [pairHigh p, pairLow p] s t ∧ Retires 3 12 s t) ∧
      (opcodeAt s = op → s.pc.toNat < 0xFFFD → fetch s = .ok (mk (immediateAt s))) ∧
      (opcodeAt s = op → s.pc = 0xFFFD#16 ∨ s.pc = 0xFFFE#16 →
        execute s = .next (s.raise (.memoryBoundsViolation (s.pc.toNat + 1) 2)))

/-- LD r8,d8 for the seven general registers (spec/42_loads.md, section 2). -/
def Obligations.LoadRegImmediate : Prop :=
  ∀ (mk : Byte → Instr) (r : Reg) (op : Byte),
    (mk, r, op) ∈ [(Instr.ldBd8, Reg.B, 0x06#8), (Instr.ldCd8, Reg.C, 0x0E#8), (Instr.ldDd8, Reg.D, 0x16#8),
      (Instr.ldEd8, Reg.E, 0x1E#8), (Instr.ldHd8, Reg.H, 0x26#8), (Instr.ldLd8, Reg.L, 0x2E#8),
      (Instr.ldAd8, Reg.A, 0x3E#8)] →
    ∀ s : State,
      (∀ v, ∃ t, exec (mk v) s = .next t ∧ t.reg r = v ∧ Frame [r] s t ∧ Retires 2 8 s t) ∧
      (opcodeAt s = op → s.pc.toNat < 0xFFFE → fetch s = .ok (mk (s.mem.read (s.pc.toNat + 1)))) ∧
      (opcodeAt s = op → s.pc = 0xFFFE#16 →
        execute s = .next (s.raise (.memoryBoundsViolation 0xFFFF 1)))

/-- The placeholder loads at 0x0A and 0x1A (spec/42_loads.md, section 3): A gets the byte at pc + 1, BC and DE
play no part, and pc moves by the machine's parameter, 1 or 2. It holds for every value of the parameters. The
bytes 0x0A and 0x1A are the spec's decision D3 (log entry 9). -/
def Obligations.PlaceholderLoads : Prop :=
  ∀ (mk : Byte → Instr) (len : PhLen) (op : Byte) (s : State),
    (mk, len, op) ∈ [(Instr.ldAPh0A, s.config.ldaPhLen0A, 0x0A#8),
      (Instr.ldAPh1A, s.config.ldaPhLen1A, 0x1A#8)] →
    (∀ v, ∃ t, exec (mk v) s = .next t ∧ t.a = v ∧ Frame [.A] s t ∧
      (len = .one → Retires 1 8 s t) ∧ (len = .two → Retires 2 8 s t)) ∧
    (opcodeAt s = op → s.pc.toNat < 0xFFFE → fetch s = .ok (mk (s.mem.read (s.pc.toNat + 1)))) ∧
    (opcodeAt s = op → s.pc = 0xFFFE#16 → execute s = .next (s.raise (.memoryBoundsViolation 0xFFFF 1)))

/-! ### Stores -/

/-- LD (BC),A and LD (DE),A (spec/43_stores.md): A goes to the byte at the address in the pair and nothing else
changes; at 0xFFFF the bounds violation is raised and nothing is written. -/
def Obligations.StoreAccumulatorIndirect : Prop :=
  ∀ (i : Instr) (p : Pair), (i, p) ∈ [(Instr.ldIndBCA, Pair.BC), (Instr.ldIndDEA, Pair.DE)] →
    ∀ (s : State) (addr : Nat), addr = (s.indirect p).toNat →
      (addr < 0xFFFF → ∃ t, exec i s = .next t ∧ t.mem.read addr = s.a ∧ KeepsMemoryBeside addr 1 s t ∧
        KeepsRegs [] s t ∧ KeepsSystem s t ∧ Retires 1 8 s t) ∧
      (addr = 0xFFFF → exec i s = .next (s.raise (.memoryBoundsViolation 0xFFFF 1)))

/-- LD (a16),SP (spec/43_stores.md): the low byte of SP goes to a16, the high byte to a16 + 1, nothing else
changes; at 0xFFFE and 0xFFFF the bounds violation is raised and no byte is written. -/
def Obligations.StoreStackPointer : Prop :=
  ∀ (s : State) (a16 : Word),
    (a16.toNat < 0xFFFE → ∃ t, exec (.ldIndA16SP a16) s = .next t ∧
      t.mem.read a16.toNat = s.sp.extractLsb' 0 8 ∧ t.mem.read (a16.toNat + 1) = s.sp.extractLsb' 8 8 ∧
      KeepsMemoryBeside a16.toNat 2 s t ∧ KeepsRegs [] s t ∧ KeepsSystem s t ∧ Retires 3 20 s t) ∧
    (0xFFFE ≤ a16.toNat →
      exec (.ldIndA16SP a16) s = .next (s.raise (.memoryBoundsViolation a16.toNat 2)))

/-- A store into the instruction stream is seen by the very next fetch (spec/20_memory.md, section 6, decision
D22): when LD (BC),A writes the byte at pc + 1 and A is a one-byte opcode, that instruction runs next. -/
def Obligations.FetchSeesEarlierStore : Prop :=
  ∀ (s : State) (i : Instr), s.pair .BC = s.pc + 1#16 → s.pair .BC ≠ 0xFFFF#16 → decode [s.a] = .ok i →
    ∃ t, exec .ldIndBCA s = .next t ∧ execute t = exec i t

/-! ### 16-bit increment and decrement -/

/-- INC BC, INC DE, INC HL (spec/44_incdec.md, section 1): the pair goes up by one modulo 65,536; no flag and
no other cell changes. -/
def Obligations.IncrementPair : Prop :=
  ∀ (i : Instr) (p : Pair), (i, p) ∈ [(Instr.incBC, Pair.BC), (Instr.incDE, Pair.DE), (Instr.incHL, Pair.HL)] →
    ∀ s : State, ∃ t, exec i s = .next t ∧ (t.pair p).toNat = ((s.pair p).toNat + 1) % 65536 ∧
      Frame [pairHigh p, pairLow p] s t ∧ Retires 1 8 s t

/-- DEC BC, DEC DE, DEC HL (spec/44_incdec.md, section 1): the pair goes down by one modulo 65,536; no flag and
no other cell changes. -/
def Obligations.DecrementPair : Prop :=
  ∀ (i : Instr) (p : Pair), (i, p) ∈ [(Instr.decBC, Pair.BC), (Instr.decDE, Pair.DE), (Instr.decHL, Pair.HL)] →
    ∀ s : State, ∃ t, exec i s = .next t ∧ (t.pair p).toNat = ((s.pair p).toNat + 65535) % 65536 ∧
      Frame [pairHigh p, pairLow p] s t ∧ Retires 1 8 s t

/-! ### 8-bit increment and decrement -/

/-- R168: `Inc8` on each of the seven general registers. -/
def Obligations.IncrementRegister : Prop :=
  ∀ (i : Instr) (r : Reg), (i, r) ∈ [(Instr.incB, Reg.B), (Instr.incC, Reg.C), (Instr.incD, Reg.D),
      (Instr.incE, Reg.E), (Instr.incH, Reg.H), (Instr.incL, Reg.L), (Instr.incA, Reg.A)] →
    ∀ s : State, ∃ t, exec i s = .next t ∧ (t.reg r).toNat = ((s.reg r).toNat + 1) % 256 ∧
      FlagsAre (decide (s.reg r = 0xFF#8)) false (decide ((s.reg r).toNat % 16 = 15)) (flagC s.f) s t ∧
      Frame [r, .F] s t ∧ Retires 1 4 s t

/-- R169: `Dec8` on each of the seven general registers, with the borrow test the spec orders. -/
def Obligations.DecrementRegister : Prop :=
  ∀ (i : Instr) (r : Reg), (i, r) ∈ [(Instr.decB, Reg.B), (Instr.decC, Reg.C), (Instr.decD, Reg.D),
      (Instr.decE, Reg.E), (Instr.decH, Reg.H), (Instr.decL, Reg.L), (Instr.decA, Reg.A)] →
    ∀ s : State, ∃ t, exec i s = .next t ∧ (t.reg r).toNat = ((s.reg r).toNat + 255) % 256 ∧
      FlagsAre (decide (s.reg r = 0x01#8)) true (decide ((s.reg r).toNat % 16 = 0)) (flagC s.f) s t ∧
      Frame [r, .F] s t ∧ Retires 1 4 s t

/-! ### Rotates -/

/-- RLCA and RRCA (spec/45_rotates.md): the bit rotated out enters at the other end and C; Z, N and H are
cleared. -/
def Obligations.RotateCircular : Prop :=
  ∀ s : State,
    (∃ t, exec .rlca s = .next t ∧
      t.a.toNat = s.a.toNat * 2 % 256 + s.a.toNat / 128 ∧
      FlagsAre false false false (decide (128 ≤ s.a.toNat)) s t ∧ Frame [.A, .F] s t ∧ Retires 1 4 s t) ∧
    (∃ t, exec .rrca s = .next t ∧
      t.a.toNat = s.a.toNat / 2 + s.a.toNat % 2 * 128 ∧
      FlagsAre false false false (decide (s.a.toNat % 2 = 1)) s t ∧ Frame [.A, .F] s t ∧ Retires 1 4 s t)

/-- RLA and RRA (spec/45_rotates.md): the old carry enters, the bit rotated out goes to C; Z, N and H are
cleared, also for a zero result. -/
def Obligations.RotateThroughCarry : Prop :=
  ∀ s : State,
    (∃ t, exec .rla s = .next t ∧
      t.a.toNat = s.a.toNat * 2 % 256 + (flagC s.f).toNat ∧
      FlagsAre false false false (decide (128 ≤ s.a.toNat)) s t ∧ Frame [.A, .F] s t ∧ Retires 1 4 s t) ∧
    (∃ t, exec .rra s = .next t ∧
      t.a.toNat = s.a.toNat / 2 + (flagC s.f).toNat * 128 ∧
      FlagsAre false false false (decide (s.a.toNat % 2 = 1)) s t ∧ Frame [.A, .F] s t ∧ Retires 1 4 s t)

/-- Laws of the rotates (spec/45_rotates.md R194, marked derived): RRA undoes RLA on A and C and the other way
round, RRCA and RLCA undo each other on A, and from a state with F's low nibble zero each leaves F at 0x00 or
0x10. -/
def Obligations.RotatesUndoEachOther : Prop :=
  ∀ (left right : Instr), (left, right) ∈ [(Instr.rla, Instr.rra), (Instr.rra, Instr.rla),
      (Instr.rlca, Instr.rrca), (Instr.rrca, Instr.rlca)] →
    ∀ s : State, ∃ t u, exec left s = .next t ∧ exec right t = .next u ∧ u.a = s.a ∧
      (left = .rla ∨ left = .rra → flagC u.f = flagC s.f) ∧
      (s.f &&& 0x0F#8 = 0x00#8 → t.f = 0x00#8 ∨ t.f = 0x10#8)

/-! ### 16-bit addition -/

/-- ADD HL,BC (spec/46_add16.md): the sum modulo 65,536, H from the low 11 bits, C from the whole sum, N
cleared, Z kept (the spec's decision D12); only H, L and F change. -/
def Obligations.AddPairToHL : Prop :=
  ∀ s : State, ∃ t, exec .addHLBC s = .next t ∧
    (t.pair .HL).toNat = ((s.pair .HL).toNat + (s.pair .BC).toNat) % 65536 ∧
    FlagsAre (flagZ s.f) false
      (decide ((s.pair .HL).toNat % 2048 + (s.pair .BC).toNat % 2048 > 2047))
      (decide ((s.pair .HL).toNat + (s.pair .BC).toNat > 65535)) s t ∧
    Frame [.H, .L, .F] s t ∧ Retires 1 8 s t

/-- No instruction but those that spec/10_state.md R15 (marked derived) lists changes F, and no instruction
changes its low nibble. The list is by opcode bytes (log entry 8). -/
def Obligations.FlagsChangedOnlyByListed : Prop :=
  ∀ (i : Instr) (s t : State), exec i s = .next t →
    (i.opcode ∉ flagOpcodes → t.f = s.f) ∧ t.f &&& 0x0F#8 = s.f &&& 0x0F#8

/-! ### Registers, flags, memory -/

/-- R14: decoding a flag byte ignores its low nibble, encoding zeroes it, and each undoes the other. -/
def Obligations.FlagByteRoundTrip : Prop :=
  (∀ b : Byte, decodeFlags b = (b.getLsbD 7, b.getLsbD 6, b.getLsbD 5, b.getLsbD 4)) ∧
  (∀ z n h c : Bool, (encodeFlags z n h c).toNat =
      z.toNat * 0x80 + n.toNat * 0x40 + h.toNat * 0x20 + c.toNat * 0x10 ∧
    decodeFlags (encodeFlags z n h c) = (z, n, h, c)) ∧
  (∀ (b : Byte) (z n h c : Bool), decodeFlags b = (z, n, h, c) → encodeFlags z n h c = b &&& 0xF0#8)

/-- R16: the four pairs are views of the cells, first register high, and a write of B changes the high byte of
BC and nothing else. -/
def Obligations.PairsAreViews : Prop :=
  ∀ (s : State) (v : Byte),
    (s.pair .AF).toNat = s.a.toNat * 256 + s.f.toNat ∧
    (s.pair .BC).toNat = s.b.toNat * 256 + s.c.toNat ∧
    (s.pair .DE).toNat = s.d.toNat * 256 + s.e.toNat ∧
    (s.pair .HL).toNat = s.h.toNat * 256 + s.l.toNat ∧
    ((s.setReg .B v).pair .BC).toNat = v.toNat * 256 + (s.pair .BC).toNat % 256 ∧
    s.setReg .B v = { s with b := v } ∧
    ∀ p, p ≠ .BC → (s.setReg .B v).pair p = s.pair p

/-- Writing a pair and reading it back gives the value, with the low nibble zeroed for AF, and changes no other
cell (spec/10_state.md, section 3). -/
def Obligations.PairWriteReadsBack : Prop :=
  ∀ (s : State) (v : Word),
    (∀ p, p ≠ .AF → (s.setPair p v).pair p = v) ∧
    (s.setPair .AF v).pair .AF = v &&& 0xFFF0#16 ∧
    ∀ p r, r ≠ pairHigh p → r ≠ pairLow p → (s.setPair p v).reg r = s.reg r

/-- The low nibble of F is zero at reset, every step keeps it so, and the two write primitives that reach F make
it so from any state (spec/10_state.md R13); no instruction but those that update flags writes F (R15, marked
derived), by the opcode bytes that are the spec's general knowledge (PRESUMED, log entry 8). -/
def Obligations.FlagLowNibbleZero : Prop :=
  State.reset.f &&& 0x0F#8 = 0x00#8 ∧
  (∀ s t : State, s.f &&& 0x0F#8 = 0x00#8 → step s = .next t → t.f &&& 0x0F#8 = 0x00#8) ∧
  (∀ (s : State) (v : Byte), (s.setReg .F v).f = v &&& 0xF0#8) ∧
  (∀ (s : State) (v : Word), (s.setPair .AF v).f = v.extractLsb' 0 8 &&& 0xF0#8) ∧
  (∀ (i : Instr) (s t : State), exec i s = .next t → i.opcode ∉ flagOpcodes → t.f = s.f)

/-- R45: a write of one or two bytes inside the store stores exactly them, low byte first; one that is not
inside raises and stores nothing, whatever part of it would have fitted. -/
def Obligations.StoreWritesWholeOrNothing : Prop :=
  ∀ (m : Memory) (addr : Word) (v : Word) (bytes : List Byte),
    bytes ∈ [[v.extractLsb' 0 8], [v.extractLsb' 0 8, v.extractLsb' 8 8]] →
    (addr.toNat + bytes.length > 65535 →
      m.store addr.toNat bytes = .error (.memoryBoundsViolation addr.toNat bytes.length)) ∧
    (addr.toNat + bytes.length ≤ 65535 → ∃ m', m.store addr.toNat bytes = .ok m' ∧
      m'.read addr.toNat = v.extractLsb' 0 8 ∧
      (bytes.length = 2 → m'.read (addr.toNat + 1) = v.extractLsb' 8 8) ∧
      ∀ x, x < addr.toNat ∨ addr.toNat + bytes.length ≤ x → m'.read x = m.read x)

/-- Reads of one and two bytes (spec/20_memory.md, sections 2 and 3): inside the store they give the bytes,
little-endian; outside they raise with the first address and the length. A word written reads back whole and
by halves. -/
def Obligations.LoadsAreLittleEndian : Prop :=
  ∀ (m : Memory) (addr v : Word),
    (addr ≠ 0xFFFF#16 → m.load8 addr = .ok (m.read addr.toNat)) ∧
    (addr = 0xFFFF#16 → m.load8 addr = .error (.memoryBoundsViolation 0xFFFF 1)) ∧
    (0xFFFE ≤ addr.toNat → m.load16 addr = .error (.memoryBoundsViolation addr.toNat 2)) ∧
    (addr.toNat < 0xFFFE →
      (∃ w, m.load16 addr = .ok w ∧
        w.toNat = (m.read (addr.toNat + 1)).toNat * 256 + (m.read addr.toNat).toNat) ∧
      ∃ m', m.store addr.toNat [v.extractLsb' 0 8, v.extractLsb' 8 8] = .ok m' ∧ m'.load16 addr = .ok v ∧
        m'.load8 addr = .ok (v.extractLsb' 0 8) ∧ m'.load8 (addr + 1#16) = .ok (v.extractLsb' 8 8))

/-- R40: the store is 65,535 bytes; every address from 0 to 0xFFFE reads, 0xFFFF does not. -/
def Obligations.StoreHasExactly65535Bytes : Prop :=
  memSize = 65535 ∧ ∀ (m : Memory) (addr : Word), (∃ v, m.load8 addr = .ok v) ↔ addr.toNat ≤ 0xFFFE

/-! ### The gate, the clock, the agents -/

/-- The pacing gate (spec/40_engine.md R102): a poll with the gate closed changes nothing; with the gate open it
performs one step, and in the same poll leaves the run if that step halted, which is the model's (DEDUCED, log
entry 4); a gate open when polled is open after any tick; the first instruction cannot retire before the first
tick. -/
def Obligations.PacingGate : Prop :=
  ∀ s : State, s.cpuEnabled = true →
    (s.totalCycles ≤ s.cycleCount → poll s = .next s) ∧
    (s.cycleCount < s.totalCycles → poll s = mapNext State.leaveRunIfHalted (execute s)) ∧
    (s.gateOpen = true → s.tick.gateOpen = true) ∧
    State.reset.gateOpen = false

/-- The CPU agent has a step exactly when the run is active and neither halted nor faulted; a step that halts or
raises ends the run; nothing else ends it, and the stopped flag changes nothing of this (spec/40_engine.md R101).
That a poll without a step changes nothing is DEDUCED (log entry 3), and that `run_active` is 0 in the very poll
that halts is DEDUCED too (log entry 4). -/
def Obligations.CpuStepsExactlyInActiveRun : Prop :=
  ∀ s : State,
    (s.cpuEnabled = true ↔ s.runActive = true ∧ s.halted = false ∧ s.fault = none) ∧
    (s.cpuEnabled = false → poll s = .next s) ∧
    (s.cpuEnabled = true → ∀ t, poll s = .next t →
      (t.ended = false → t.runActive = true) ∧
      (t.ended = true → t.runActive = false ∧ poll t = .next t))

/-- A tick adds one to the counter, writes nothing else, and happens exactly when the clock is started, whatever
the CPU does (spec/47_clock.md R212, R213). That the turn of a clock which is not started is a stutter is DEDUCED
(log entry 3). -/
def Obligations.TickAddsOne : Prop :=
  ∀ s : State,
    (s.clockStarted = true → move .clock s = .next { s with totalCycles := s.totalCycles + 1 }) ∧
    (s.clockStarted = false → move .clock s = .next s)

/-- R216: a read of the clock gives the counter's value, and no step of any agent makes it less. -/
def Obligations.ClockReadsAreMonotone : Prop :=
  ∀ s t : State, s.readTotalCycles = s.totalCycles ∧
    (step s = .next t → s.readTotalCycles ≤ t.readTotalCycles)

/-- The clock agent writes its counter only; the CPU agent writes neither sp nor any of the clock's state; the
host writes nothing during a run (spec/10_state.md R29). That after a run the host can at most start the clock is
DEDUCED (log entry 11), and that the parameters are state that never changes is a DESIGN CHOICE (log entry 7). -/
def Obligations.AgentsWriteOnlyTheirOwn : Prop :=
  ∀ s t : State,
    (move .clock s = .next t → t = { s with totalCycles := t.totalCycles }) ∧
    (move .cpu s = .next t → t.sp = s.sp ∧ t.totalCycles = s.totalCycles ∧ t.clockStarted = s.clockStarted ∧
      t.config = s.config ∧ t.schedule = s.schedule ∧ t.turn = s.turn) ∧
    (∀ a, s.runActive = true → move (.host a) s = .next s) ∧
    (∀ a, s.ended = true → move (.host a) s = .next t → t = { s with clockStarted := t.clockStarted }) ∧
    (∀ a, move (.host a) s = .next t → t.totalCycles = s.totalCycles ∧ t.cycleCount = s.cycleCount ∧
      t.halted = s.halted ∧ t.stopped = s.stopped ∧ t.config = s.config)

/-- A tick and a CPU step commute once the gate is open (spec/60_exceptions.md R241, marked derived). -/
def Obligations.TickCommutesWithCpuStep : Prop :=
  ∀ s : State, s.gateOpen = true → poll s.tick = mapNext State.tick (poll s)

/-- `halted` is set by HALT and `stopped` by STOP and by nothing else, and nothing clears them
(spec/10_state.md, section 6). STOP's byte 0x10 is the spec's general knowledge (log entry 8). -/
def Obligations.HaltedAndStoppedSetOnlyByTheirOpcodes : Prop :=
  ∀ s t : State, step s = .next t →
    (t.halted = s.halted ∨ s.nextMove = .cpu ∧ opcodeAt s = 0x76#8 ∧ t.halted = true) ∧
    (t.stopped = s.stopped ∨ s.nextMove = .cpu ∧ opcodeAt s = 0x10#8 ∧ t.stopped = true)

/-- No backward control transfer (spec/41_control.md R123; spec/40_engine.md R110, marked derived): a CPU move
leaves pc, raises it by 1 to 3, or is STOP at 0xFFFE, which wraps it to 0 (the spec's decision D7). STOP's byte
0x10 is the spec's general knowledge (PRESUMED, log entry 8). -/
def Obligations.PcOnlyMovesForward : Prop :=
  ∀ s t : State, move .cpu s = .next t →
    t.pc = s.pc ∨ (s.pc.toNat < t.pc.toNat ∧ t.pc.toNat ≤ s.pc.toNat + 3) ∨
      (s.pc = 0xFFFE#16 ∧ opcodeAt s = 0x10#8 ∧ t.pc = 0x0000#16)

/-! ### The host -/

/-- What the host may write before a run (spec/70_reset_and_hazards.md, section 3, decision D23; the model's
rendering is log entry 11): registers with F masked, pairs, pc, sp, and memory bytes, each write changing nothing
else (`Retires 0 0`: pc and cycle_count stay), a write outside the store being fatal and writing nothing. -/
def Obligations.HostWritesBeforeRun : Prop :=
  ∀ s : State, s.runActive = false → s.ended = false →
    (∀ r v, ∃ t, move (.host (.writeReg r v)) s = .next t ∧ t = s.setReg r v ∧
      t.reg r = (if r = .F then v &&& 0xF0#8 else v) ∧ Frame [r] s t ∧ Retires 0 0 s t) ∧
    (∀ p v, ∃ t, move (.host (.writePair p v)) s = .next t ∧ t = s.setPair p v ∧
      t.pair p = (if p = .AF then v &&& 0xFFF0#16 else v) ∧ Frame [pairHigh p, pairLow p] s t ∧
      Retires 0 0 s t) ∧
    (∀ v, move (.host (.setPc v)) s = .next { s with pc := v }) ∧
    (∀ v, move (.host (.setSp v)) s = .next { s with sp := v }) ∧
    (∀ addr bytes, addr + bytes.length ≤ 65535 →
      ∃ t, move (.host (.writeMem addr bytes)) s = .next t ∧
        (∀ k, (hk : k < bytes.length) → t.mem.read (addr + k) = bytes[k]) ∧
        KeepsMemoryBeside addr bytes.length s t ∧ t = { s with mem := t.mem }) ∧
    (∀ addr bytes, addr + bytes.length > 65535 →
      move (.host (.writeMem addr bytes)) s =
        .next (s.raise (.memoryBoundsViolation addr bytes.length)))

/-- During a run no action of the host changes anything, so the host cannot stop a run (spec/70_reset_and_hazards.md
R267, which gives the host no move then). That a host move which stands in the order during a run is a stutter is
DEDUCED (log entries 3 and 11), and that the order stands in a schedule which the step advances is a DESIGN CHOICE
(log entry 2). -/
def Obligations.HostHasNoMoveDuringRun : Prop :=
  ∀ (s : State) (a : HostAction), s.runActive = true →
    move (.host a) s = .next s ∧
    (s.nextMove = .host a → step s = .next s.advanceSchedule)

/-- `run()` sets `run_active` and starts the clock, and changes nothing else; on a halted or faulted machine it
makes no step possible and leaves the architectural state (spec/40_engine.md, sections 1 and 5; decisions D16
and D24; log entry 11). -/
def Obligations.RunStartsClockAndCpu : Prop :=
  ∀ s : State, s.runActive = false →
    ∃ t, move (.host .run) s = .next t ∧ t.clockStarted = true ∧
      (s.ended = false → t.cpuEnabled = true) ∧ (s.ended = true → t.cpuEnabled = false) ∧
      t = { s with clockStarted := true, runActive := t.runActive }

/-! ### Reset and construction -/

/-- R263: after reset pc is the constant 0x0100, sp is 0x0000, and every register and flag is zero. -/
def Obligations.ResetEntryPoint : Prop :=
  State.reset.pc = 0x0100#16 ∧ State.reset.sp = 0x0000#16 ∧ (∀ r, State.reset.reg r = 0x00#8) ∧
    decodeFlags State.reset.f = (false, false, false, false)

/-- The whole reset state (spec/10_state.md, section 12), at the spec's default parameters: the eight cells, sp
and the counters zero, pc 0x0100, no run and no error, and zero memory with the HALT seed at 0xFFFE. The model takes the defaults of decisions D5 and D6 (log entry 6). -/
def Obligations.ResetState : Prop :=
  let s := State.reset
  (∀ r, s.reg r = 0x00#8) ∧ s.pc = 0x0100#16 ∧ s.sp = 0x0000#16 ∧ s.halted = false ∧ s.stopped = false ∧ s.cycleCount = 0 ∧ s.fault = none ∧ s.runActive = false ∧
    s.totalCycles = 0 ∧ s.clockStarted = false ∧ s.config.wellFormed = true ∧
    (∀ addr, addr < 65535 → s.mem.read addr = if addr = 0xFFFE then 0x76#8 else 0x00#8) ∧
    construct defaultConfig [] = .next s

/-- Construction with frequency 0 fails with `InvalidConfiguration` and gives no machine, and no step of a machine
ever ends so (spec/60_exceptions.md R233). That any other frequency gives a machine, whatever the seed's address,
is a DESIGN CHOICE (log entry 17), and so is that every step, one that raises among them, answers a next state
(log entry 5). -/
def Obligations.ZeroFrequencyIsInvalid : Prop :=
  (∀ (c : Config) (image : List Host.Cell),
    (c.freqHz = 0#32 → construct c image = .fault .invalidConfiguration) ∧
    (c.freqHz ≠ 0#32 → ∃ s, construct c image = .next s)) ∧
  ∀ s : State, ∃ t, step s = .next t

/-- Construction with any parameters (spec/70_reset_and_hazards.md, section 1; decisions D5, D6; log entry 6):
memory is `INIT_MEM` with 0x76 at `HALT_SEED_ADDR`, everything else is as at reset, and the invariant of every
step holds. -/
def Obligations.ConstructionGivesBootState : Prop :=
  ∀ (c : Config) (image : List Host.Cell), c.wellFormed = true →
    ∃ s, construct c image = .next s ∧ Inv s ∧ s.config = c ∧
      s = { State.reset with config := c, mem := s.mem } ∧
      s.mem.read c.haltSeedAddr.toNat = 0x76#8 ∧
      ∀ addr, addr < 65535 → addr ≠ c.haltSeedAddr.toNat → s.mem.read addr = imageByte image addr

/-! ### Invariants and whole-machine results -/

/-- The invariant holds at reset, at the spec's default parameters (log entry 6). -/
def Obligations.ResetMeetsInvariant : Prop := Inv State.reset

/-- Every step keeps the invariant: canonical memory, the low nibble of F, the bound between the two counters
(spec/40_engine.md R105, marked derived), the relations of the run's flags and the legal parameters. That a halted
machine has `run_active` 0 in every state is the model's: it leaves the run in the very step that halts (DEDUCED,
log entry 4); that the parameters are state is a DESIGN CHOICE (log entry 7). -/
def Obligations.StepKeepsInvariant : Prop :=
  ∀ s t : State, Inv s → step s = .next t → Inv t

/-- Once halted or faulted, for ever so (spec/40_engine.md, section 5; spec/60_exceptions.md, sections 3 and 10):
no number of steps of any agents changes anything but the clock, whether the clock is started, and the schedule,
which is the model's (DESIGN CHOICE, log entry 2). That the host can then at most start the clock is DEDUCED (log
entry 11). -/
def Obligations.EndIsForever : Prop :=
  ∀ (s t : State) (k : Nat), s.ended = true → s.runActive = false → Host.Core.run core k s = .next t →
    t.ended = true ∧ t.runActive = false ∧
      architectural t = { architectural s with clockStarted := t.clockStarted }

/-- Determinism (spec/40_engine.md R112, marked derived): two runs from one state under any two schedules of
clock ticks and CPU polls, each long enough to end, end in the same architectural state. That a schedule is a list
in State is the model's (DESIGN CHOICE, log entry 2), and so is that a run which has halted has left the run in the
same poll (DEDUCED, log entry 4). -/
def Obligations.FinalStateIgnoresSchedule : Prop :=
  ∀ (s t₁ t₂ : State) (σ₁ σ₂ : List Move),
    (∀ m ∈ σ₁, isAgentMove m) → (∀ m ∈ σ₂, isAgentMove m) →
    Host.Core.run core σ₁.length ({ s with schedule := σ₁ } : State) = .next t₁ →
    Host.Core.run core σ₂.length ({ s with schedule := σ₂ } : State) = .next t₂ →
    t₁.ended = true → t₂.ended = true → architectural t₁ = architectural t₂

/-- Progress (spec/40_engine.md R111; spec/47_clock.md R217, the spec's decision D17). From every state the clock
and the CPU get their turns again and again; a started clock passes every count; so a CPU that has a step comes to
execute the instruction at pc, with no bound on when. After enough ticks in a row the next poll does it. That a
started clock passes EVERY count, also those of 2^64 and above, is the model's: its counters are unbounded naturals
(DESIGN CHOICE, log entry 1), and spec/47_clock.md R220 puts such a run outside the spec. That the
moves come as a finite schedule and then fair rounds is the model's rendering (DESIGN CHOICE, log entry 2), and
that a HALT so executed leaves the run in the same poll is the model's too (DEDUCED, log entry 4). -/
def Obligations.EnoughTicksLetTheCpuStep : Prop :=
  (∀ s : State, WeaklyFair s) ∧
  (∀ (s : State) (n : Nat), s.clockStarted = true → Eventually (fun t => n ≤ t.totalCycles) s) ∧
  (∀ s : State, s.cpuEnabled = true → s.clockStarted = true → ∃ u, execute s = .next u ∧
    Eventually (fun t => architectural t = architectural u.leaveRunIfHalted) s) ∧
  ∀ (s : State) (n : Nat), s.cpuEnabled = true → s.clockStarted = true → s.cycleCount < s.totalCycles + n →
    s.schedule = List.replicate n .clock ++ [.cpu] →
    ∃ t u, Host.Core.run core (n + 1) s = .next t ∧ execute s = .next u ∧
      architectural t = architectural u.leaveRunIfHalted

/-- Neither counter ever decreases (spec/40_engine.md, section 3), whichever agent moves. -/
def Obligations.CountersNeverDecrease : Prop :=
  ∀ (s t : State) (k : Nat), Host.Core.run core k s = .next t →
    s.totalCycles ≤ t.totalCycles ∧ s.cycleCount ≤ t.cycleCount

/-! ### The clock with a time source -/

/-- R214: before the deadline a look of the pacing loop does nothing; at or after it, the counter goes up by one
and the deadline by exactly one period, added to the old deadline; start sets the deadline to now. At frequency
0, which the rendering excludes by a precondition (log entry 18), the period stands for nothing. -/
def Obligations.PacingLoopTick : Prop :=
  ∀ (k : RealClock) (now : Rat),
    (k.started = false → (k.start now).deadline = now ∧ (k.start now).started = true) ∧
    (k.started = true → k.deadline ≤ now →
      k.pass now = { k with totalCycles := k.totalCycles + 1,
                            deadline := k.deadline + 1000000000 / (k.freqHz.toNat : Rat) }) ∧
    (k.started = true → now < k.deadline → k.pass now = k) ∧
    (k.started = false → k.pass now = k)

/-- The counter never runs ahead of real time by more than one pending increment (spec/47_clock.md R215, marked
derived): however often the loop looks, with no look later than `t`. -/
def Obligations.RealTimeUpperBound : Prop :=
  ∀ (freq : BitVec 32) (t₀ t : Rat) (times : List Rat), freq ≠ 0#32 → t₀ ≤ t → (∀ now ∈ times, now ≤ t) →
    ((((RealClock.new freq).start t₀).passes times).totalCycles : Int) ≤ ⌊(t - t₀) / periodNs freq⌋ + 1
end

