-- ==== Sys2Proof/Laws/Memory.lean ====
section
/-! SUPPORT. The laws of memory: what a read gives after a write, and that every memory operation keeps the
canonical form `Memory.wf`. -/

namespace Sys2Proof.Machine

/-! ### Read after write; no hypothesis on the form of the list -/

@[simp] theorem Memory.read_erase_self (m : Memory) (addr : Nat) :
    (Memory.erase m addr).read addr = Memory.unlisted addr := by
  induction m with
  | nil => rfl
  | cons cell rest ih =>
    obtain ⟨x, v⟩ := cell
    by_cases hx : x = addr
    · simpa [Memory.erase, hx] using ih
    · simpa [Memory.erase, Memory.read, hx] using ih

@[simp] theorem Memory.read_erase_of_ne (m : Memory) {addr x : Nat} (hne : x ≠ addr) :
    (Memory.erase m addr).read x = m.read x := by
  induction m with
  | nil => rfl
  | cons cell rest ih =>
    obtain ⟨y, v⟩ := cell
    by_cases hy : y = addr
    · have hyx : ¬ addr = x := fun h => hne h.symm
      simpa [Memory.erase, Memory.read, hy, hyx] using ih
    · simp [Memory.erase, Memory.read, hy, ih]

theorem Memory.read_insert_erase_self (m : Memory) (addr : Nat) (v : Byte) :
    (Memory.insert (Memory.erase m addr) addr v).read addr = v := by
  induction m with
  | nil => simp [Memory.erase, Memory.insert, Memory.read]
  | cons cell rest ih =>
    obtain ⟨x, w⟩ := cell
    by_cases hx : x = addr
    · simpa [Memory.erase, hx] using ih
    · by_cases hlt : addr < x
      · simp [Memory.erase, Memory.insert, Memory.read, hx, hlt]
      · simpa [Memory.erase, Memory.insert, Memory.read, hx, hlt] using ih

theorem Memory.read_insert_of_ne (m : Memory) {addr x : Nat} (v : Byte) (hne : x ≠ addr) :
    (Memory.insert m addr v).read x = m.read x := by
  have hne' : ¬ addr = x := fun h => hne h.symm
  induction m with
  | nil => simp [Memory.insert, Memory.read, hne']
  | cons cell rest ih =>
    obtain ⟨y, w⟩ := cell
    by_cases hlt : addr < y
    · simp [Memory.insert, Memory.read, hlt, hne']
    · simp [Memory.insert, Memory.read, hlt, ih]

/-- A read of the byte written gives the value written (spec/20_memory.md R48). -/
@[simp] theorem Memory.read_write_self (m : Memory) (addr : Nat) (v : Byte) :
    (m.write addr v).read addr = v := by
  unfold Memory.write
  split
  · next hv => simp [hv]
  · exact Memory.read_insert_erase_self m addr v

/-- A write leaves every other byte. -/
@[simp] theorem Memory.read_write_of_ne (m : Memory) {addr x : Nat} (v : Byte) (hne : x ≠ addr) :
    (m.write addr v).read x = m.read x := by
  unfold Memory.write
  split
  · exact Memory.read_erase_of_ne m hne
  · rw [Memory.read_insert_of_ne _ v hne, Memory.read_erase_of_ne m hne]

/-- Bytes outside the run of a `writeBytes` read as before. -/
theorem Memory.read_writeBytes_outside (m : Memory) (addr : Nat) (bytes : List Byte) (x : Nat)
    (hx : x < addr ∨ addr + bytes.length ≤ x) : (m.writeBytes addr bytes).read x = m.read x := by
  induction bytes generalizing m addr with
  | nil => rfl
  | cons v rest ih =>
    simp only [List.length_cons] at hx
    rw [Memory.writeBytes, ih (m.write addr v) (addr + 1) (by omega), Memory.read_write_of_ne m v (by omega)]

/-- Bytes inside the run of a `writeBytes` read as written. -/
theorem Memory.read_writeBytes_inside (m : Memory) (addr : Nat) (bytes : List Byte) (k : Nat)
    (hk : k < bytes.length) : (m.writeBytes addr bytes).read (addr + k) = bytes[k] := by
  induction bytes generalizing m addr k with
  | nil => simp at hk
  | cons v rest ih =>
    cases k with
    | zero =>
      rw [Memory.writeBytes, Memory.read_writeBytes_outside _ _ _ _ (by omega)]
      simp
    | succ k =>
      have hk' : k < rest.length := by simpa using hk
      have hshift : addr + (k + 1) = (addr + 1) + k := by omega
      rw [Memory.writeBytes, hshift, ih (m.write addr v) (addr + 1) k hk']
      rfl

/-! ### The canonical form -/

/-- The condition on one cell in `Memory.wf`. -/
def Memory.cellOk (cell : Host.Cell) : Bool :=
  decide (cell.1 < memSize) && decide (cell.2 ≠ Memory.unlisted cell.1)

theorem Memory.risingFrom_le (m : Memory) {low low' : Nat} (hle : low' ≤ low)
    (hm : Memory.risingFrom low m = true) : Memory.risingFrom low' m = true := by
  cases m with
  | nil => rfl
  | cons cell rest =>
    obtain ⟨x, v⟩ := cell
    simp only [Memory.risingFrom, Bool.and_eq_true, decide_eq_true_eq] at hm ⊢
    exact ⟨by omega, hm.2⟩

theorem Memory.risingFrom_erase (m : Memory) (low addr : Nat) (hm : Memory.risingFrom low m = true) :
    Memory.risingFrom low (Memory.erase m addr) = true := by
  induction m generalizing low with
  | nil => rfl
  | cons cell rest ih =>
    obtain ⟨x, v⟩ := cell
    simp only [Memory.risingFrom, Bool.and_eq_true, decide_eq_true_eq] at hm
    by_cases hx : x = addr
    · simpa [Memory.erase, hx] using ih low (Memory.risingFrom_le rest (by omega) hm.2)
    · simp [Memory.erase, Memory.risingFrom, hx, hm.1, ih (x + 1) hm.2]

theorem Memory.risingFrom_insert_erase (m : Memory) (low addr : Nat) (v : Byte) (hlow : low ≤ addr)
    (hm : Memory.risingFrom low m = true) :
    Memory.risingFrom low (Memory.insert (Memory.erase m addr) addr v) = true := by
  induction m generalizing low with
  | nil => simp [Memory.erase, Memory.insert, Memory.risingFrom, hlow]
  | cons cell rest ih =>
    obtain ⟨x, w⟩ := cell
    simp only [Memory.risingFrom, Bool.and_eq_true, decide_eq_true_eq] at hm
    by_cases hx : x = addr
    · simpa [Memory.erase, hx] using ih low hlow (Memory.risingFrom_le rest (by omega) hm.2)
    · by_cases hlt : addr < x
      · have hrest := Memory.risingFrom_erase rest (x + 1) addr hm.2
        simp [Memory.erase, Memory.insert, Memory.risingFrom, hx, hlt, hlow, hrest,
          show addr + 1 ≤ x by omega]
      · simp [Memory.erase, Memory.insert, Memory.risingFrom, hx, hlt, hm.1,
          ih (x + 1) (by omega) hm.2]

theorem Memory.all_erase (m : Memory) (addr : Nat) (p : Host.Cell → Bool) (hm : m.all p = true) :
    (Memory.erase m addr).all p = true := by
  induction m with
  | nil => rfl
  | cons cell rest ih =>
    obtain ⟨x, v⟩ := cell
    simp only [List.all_cons, Bool.and_eq_true] at hm
    by_cases hx : x = addr
    · simpa [Memory.erase, hx] using ih hm.2
    · simp only [Memory.erase, if_neg hx, List.all_cons, hm.1, Bool.true_and]
      exact ih hm.2

theorem Memory.all_insert (m : Memory) (addr : Nat) (v : Byte) (p : Host.Cell → Bool)
    (hm : m.all p = true) (hv : p (addr, v) = true) : (Memory.insert m addr v).all p = true := by
  induction m with
  | nil => simp [Memory.insert, hv]
  | cons cell rest ih =>
    obtain ⟨x, w⟩ := cell
    have hm' := hm
    simp only [List.all_cons, Bool.and_eq_true] at hm'
    by_cases hlt : addr < x
    · simp only [Memory.insert, if_pos hlt, List.all_cons, hv, hm'.1, hm'.2, Bool.and_self]
    · simp only [Memory.insert, if_neg hlt, List.all_cons, hm'.1, Bool.true_and]
      exact ih hm'.2

theorem Memory.wf_nil : Memory.wf [] = true := rfl

/-- A write inside the store keeps the canonical form. -/
theorem Memory.wf_write (m : Memory) (addr : Nat) (v : Byte) (hm : m.wf = true) (ha : addr < memSize) :
    (m.write addr v).wf = true := by
  simp only [Memory.wf, Bool.and_eq_true] at hm
  unfold Memory.write
  split
  · simp only [Memory.wf, Bool.and_eq_true]
    exact ⟨Memory.risingFrom_erase m 0 addr hm.1, Memory.all_erase m addr _ hm.2⟩
  · next hv =>
    simp only [Memory.wf, Bool.and_eq_true]
    refine ⟨Memory.risingFrom_insert_erase m 0 addr v (Nat.zero_le _) hm.1, ?_⟩
    exact Memory.all_insert _ addr v _ (Memory.all_erase m addr _ hm.2) (by simp [ha, hv])

theorem Memory.wf_writeBytes (m : Memory) (addr : Nat) (bytes : List Byte) (hm : m.wf = true)
    (ha : addr + bytes.length ≤ memSize) : (m.writeBytes addr bytes).wf = true := by
  induction bytes generalizing m addr with
  | nil => exact hm
  | cons v rest ih =>
    simp only [List.length_cons] at ha
    exact ih (m.write addr v) (addr + 1) (Memory.wf_write m addr v hm (by omega)) (by omega)

/-- The checked store keeps the canonical form. -/
theorem Memory.wf_store (m m' : Memory) (addr : Nat) (bytes : List Byte) (hm : m.wf = true)
    (hs : m.store addr bytes = .ok m') : m'.wf = true := by
  unfold Memory.store at hs
  split at hs
  · next hin =>
    cases hs
    exact Memory.wf_writeBytes m addr bytes hm (by simpa [inStore] using hin)
  · cases hs

theorem Memory.wf_place (m : Memory) (addr : Nat) (bytes : List Byte) (hm : m.wf = true) :
    (m.place addr bytes).wf = true := by
  induction bytes generalizing m addr with
  | nil => exact hm
  | cons v rest ih =>
    rw [Memory.place]
    split
    · next hin => exact ih _ _ (Memory.wf_write m addr v hm (by simpa [inStore] using hin))
    · exact ih _ _ hm

theorem Memory.wf_writeImage (m : Memory) (image : List Host.Cell) (hm : m.wf = true) :
    (m.writeImage image).wf = true := by
  induction image generalizing m with
  | nil => exact hm
  | cons cell rest ih =>
    obtain ⟨x, v⟩ := cell
    rw [Memory.writeImage]
    split
    · next hin => exact ih _ (Memory.wf_write m x v hm (by simpa [inStore] using hin))
    · exact ih _ hm

/-- What one write of an image does to the reads inside the store: the last cell for an address counts. -/
theorem Memory.read_writeImage_cons (m : Memory) (x : Nat) (v : Byte) (rest : List Host.Cell)
    (hx : x < memSize) : m.writeImage ((x, v) :: rest) = (m.write x v).writeImage rest := by
  have hin : inStore x 1 = true := by simp only [inStore, decide_eq_true_eq]; omega
  simp [Memory.writeImage, hin]

/-- The reset memory has the canonical form. -/
theorem State.reset_mem_wf : State.reset.mem.wf = true := rfl

end Sys2Proof.Machine
end

