-- ==== Sys2Proof/Laws/State.lean ====
section
/-! SUPPORT. What each update of State does to each field, and to a read of a register: the simp set of the
later proofs, so that none of them unfolds an update. -/

namespace Sys2Proof.Machine

/-! ### `State.setReg` -/

@[simp] theorem State.setReg_pc (s : State) (r : Reg) (v : Byte) : (s.setReg r v).pc = s.pc := by cases r <;> rfl
@[simp] theorem State.setReg_sp (s : State) (r : Reg) (v : Byte) : (s.setReg r v).sp = s.sp := by cases r <;> rfl
@[simp] theorem State.setReg_mem (s : State) (r : Reg) (v : Byte) : (s.setReg r v).mem = s.mem := by cases r <;> rfl
@[simp] theorem State.setReg_halted (s : State) (r : Reg) (v : Byte) : (s.setReg r v).halted = s.halted := by cases r <;> rfl
@[simp] theorem State.setReg_stopped (s : State) (r : Reg) (v : Byte) : (s.setReg r v).stopped = s.stopped := by cases r <;> rfl
@[simp] theorem State.setReg_cycleCount (s : State) (r : Reg) (v : Byte) : (s.setReg r v).cycleCount = s.cycleCount := by cases r <;> rfl
@[simp] theorem State.setReg_fault (s : State) (r : Reg) (v : Byte) : (s.setReg r v).fault = s.fault := by cases r <;> rfl
@[simp] theorem State.setReg_runActive (s : State) (r : Reg) (v : Byte) : (s.setReg r v).runActive = s.runActive := by cases r <;> rfl
@[simp] theorem State.setReg_totalCycles (s : State) (r : Reg) (v : Byte) : (s.setReg r v).totalCycles = s.totalCycles := by cases r <;> rfl
@[simp] theorem State.setReg_clockStarted (s : State) (r : Reg) (v : Byte) : (s.setReg r v).clockStarted = s.clockStarted := by cases r <;> rfl
@[simp] theorem State.setReg_config (s : State) (r : Reg) (v : Byte) : (s.setReg r v).config = s.config := by cases r <;> rfl
@[simp] theorem State.setReg_schedule (s : State) (r : Reg) (v : Byte) : (s.setReg r v).schedule = s.schedule := by cases r <;> rfl
@[simp] theorem State.setReg_turn (s : State) (r : Reg) (v : Byte) : (s.setReg r v).turn = s.turn := by cases r <;> rfl
@[simp] theorem State.reg_setReg_self (s : State) (r : Reg) (v : Byte) :
    (s.setReg r v).reg r = if r = .F then v &&& 0xF0#8 else v := by cases r <;> rfl
@[simp] theorem State.reg_setReg_of_ne (s : State) {r q : Reg} (v : Byte) (hne : q ≠ r) :
    (s.setReg r v).reg q = s.reg q := by cases r <;> cases q <;> first | rfl | exact absurd rfl hne
@[simp] theorem State.setReg_f_of_ne (s : State) {r : Reg} (v : Byte) (hne : r ≠ .F) :
    (s.setReg r v).f = s.f := by cases r <;> first | rfl | exact absurd rfl hne

/-! ### `State.setPair` -/

@[simp] theorem State.setPair_pc (s : State) (p : Pair) (v : Word) : (s.setPair p v).pc = s.pc := by cases p <;> rfl
@[simp] theorem State.setPair_sp (s : State) (p : Pair) (v : Word) : (s.setPair p v).sp = s.sp := by cases p <;> rfl
@[simp] theorem State.setPair_mem (s : State) (p : Pair) (v : Word) : (s.setPair p v).mem = s.mem := by cases p <;> rfl
@[simp] theorem State.setPair_halted (s : State) (p : Pair) (v : Word) : (s.setPair p v).halted = s.halted := by cases p <;> rfl
@[simp] theorem State.setPair_stopped (s : State) (p : Pair) (v : Word) : (s.setPair p v).stopped = s.stopped := by cases p <;> rfl
@[simp] theorem State.setPair_cycleCount (s : State) (p : Pair) (v : Word) : (s.setPair p v).cycleCount = s.cycleCount := by cases p <;> rfl
@[simp] theorem State.setPair_fault (s : State) (p : Pair) (v : Word) : (s.setPair p v).fault = s.fault := by cases p <;> rfl
@[simp] theorem State.setPair_runActive (s : State) (p : Pair) (v : Word) : (s.setPair p v).runActive = s.runActive := by cases p <;> rfl
@[simp] theorem State.setPair_totalCycles (s : State) (p : Pair) (v : Word) : (s.setPair p v).totalCycles = s.totalCycles := by cases p <;> rfl
@[simp] theorem State.setPair_clockStarted (s : State) (p : Pair) (v : Word) : (s.setPair p v).clockStarted = s.clockStarted := by cases p <;> rfl
@[simp] theorem State.setPair_config (s : State) (p : Pair) (v : Word) : (s.setPair p v).config = s.config := by cases p <;> rfl
@[simp] theorem State.setPair_schedule (s : State) (p : Pair) (v : Word) : (s.setPair p v).schedule = s.schedule := by cases p <;> rfl
@[simp] theorem State.setPair_turn (s : State) (p : Pair) (v : Word) : (s.setPair p v).turn = s.turn := by cases p <;> rfl
@[simp] theorem State.setPair_f_of_ne (s : State) {p : Pair} (v : Word) (hne : p ≠ .AF) :
    (s.setPair p v).f = s.f := by cases p <;> first | rfl | exact absurd rfl hne
@[simp] theorem State.setPair_AF_f (s : State) (v : Word) :
    (s.setPair .AF v).f = lowByte v &&& 0xF0#8 := rfl
/-- A pair write leaves every cell that is not of the pair. -/
@[simp] theorem State.reg_setPair_of_ne (s : State) (p : Pair) (v : Word) (q : Reg) (hHigh : q ≠ pairHigh p)
    (hLow : q ≠ pairLow p) : (s.setPair p v).reg q = s.reg q := by
  simp [State.setPair, hHigh, hLow]

/-! ### `State.setFlags` -/

@[simp] theorem State.setFlags_a (s : State) (z n hc c : Bool) : (s.setFlags z n hc c).a = s.a := rfl
@[simp] theorem State.setFlags_b (s : State) (z n hc c : Bool) : (s.setFlags z n hc c).b = s.b := rfl
@[simp] theorem State.setFlags_c (s : State) (z n hc c : Bool) : (s.setFlags z n hc c).c = s.c := rfl
@[simp] theorem State.setFlags_d (s : State) (z n hc c : Bool) : (s.setFlags z n hc c).d = s.d := rfl
@[simp] theorem State.setFlags_e (s : State) (z n hc c : Bool) : (s.setFlags z n hc c).e = s.e := rfl
@[simp] theorem State.setFlags_h (s : State) (z n hc c : Bool) : (s.setFlags z n hc c).h = s.h := rfl
@[simp] theorem State.setFlags_l (s : State) (z n hc c : Bool) : (s.setFlags z n hc c).l = s.l := rfl
@[simp] theorem State.setFlags_pc (s : State) (z n hc c : Bool) : (s.setFlags z n hc c).pc = s.pc := rfl
@[simp] theorem State.setFlags_sp (s : State) (z n hc c : Bool) : (s.setFlags z n hc c).sp = s.sp := rfl
@[simp] theorem State.setFlags_mem (s : State) (z n hc c : Bool) : (s.setFlags z n hc c).mem = s.mem := rfl
@[simp] theorem State.setFlags_halted (s : State) (z n hc c : Bool) : (s.setFlags z n hc c).halted = s.halted := rfl
@[simp] theorem State.setFlags_stopped (s : State) (z n hc c : Bool) : (s.setFlags z n hc c).stopped = s.stopped := rfl
@[simp] theorem State.setFlags_cycleCount (s : State) (z n hc c : Bool) : (s.setFlags z n hc c).cycleCount = s.cycleCount := rfl
@[simp] theorem State.setFlags_fault (s : State) (z n hc c : Bool) : (s.setFlags z n hc c).fault = s.fault := rfl
@[simp] theorem State.setFlags_runActive (s : State) (z n hc c : Bool) : (s.setFlags z n hc c).runActive = s.runActive := rfl
@[simp] theorem State.setFlags_totalCycles (s : State) (z n hc c : Bool) : (s.setFlags z n hc c).totalCycles = s.totalCycles := rfl
@[simp] theorem State.setFlags_clockStarted (s : State) (z n hc c : Bool) : (s.setFlags z n hc c).clockStarted = s.clockStarted := rfl
@[simp] theorem State.setFlags_config (s : State) (z n hc c : Bool) : (s.setFlags z n hc c).config = s.config := rfl
@[simp] theorem State.setFlags_schedule (s : State) (z n hc c : Bool) : (s.setFlags z n hc c).schedule = s.schedule := rfl
@[simp] theorem State.setFlags_turn (s : State) (z n hc c : Bool) : (s.setFlags z n hc c).turn = s.turn := rfl
@[simp] theorem State.setFlags_f (s : State) (z n hc c : Bool) :
    (s.setFlags z n hc c).f = writeFlags s.f z n hc c := rfl
@[simp] theorem State.reg_setFlags_of_ne (s : State) (z n hc c : Bool) {q : Reg} (hne : q ≠ .F) :
    (s.setFlags z n hc c).reg q = s.reg q := by cases q <;> first | rfl | exact absurd rfl hne

/-! ### `State.raise` -/

@[simp] theorem State.raise_a (s : State) (err : FatalError) : (s.raise err).a = s.a := rfl
@[simp] theorem State.raise_b (s : State) (err : FatalError) : (s.raise err).b = s.b := rfl
@[simp] theorem State.raise_c (s : State) (err : FatalError) : (s.raise err).c = s.c := rfl
@[simp] theorem State.raise_d (s : State) (err : FatalError) : (s.raise err).d = s.d := rfl
@[simp] theorem State.raise_e (s : State) (err : FatalError) : (s.raise err).e = s.e := rfl
@[simp] theorem State.raise_h (s : State) (err : FatalError) : (s.raise err).h = s.h := rfl
@[simp] theorem State.raise_l (s : State) (err : FatalError) : (s.raise err).l = s.l := rfl
@[simp] theorem State.raise_f (s : State) (err : FatalError) : (s.raise err).f = s.f := rfl
@[simp] theorem State.raise_pc (s : State) (err : FatalError) : (s.raise err).pc = s.pc := rfl
@[simp] theorem State.raise_sp (s : State) (err : FatalError) : (s.raise err).sp = s.sp := rfl
@[simp] theorem State.raise_mem (s : State) (err : FatalError) : (s.raise err).mem = s.mem := rfl
@[simp] theorem State.raise_halted (s : State) (err : FatalError) : (s.raise err).halted = s.halted := rfl
@[simp] theorem State.raise_stopped (s : State) (err : FatalError) : (s.raise err).stopped = s.stopped := rfl
@[simp] theorem State.raise_cycleCount (s : State) (err : FatalError) : (s.raise err).cycleCount = s.cycleCount := rfl
@[simp] theorem State.raise_totalCycles (s : State) (err : FatalError) : (s.raise err).totalCycles = s.totalCycles := rfl
@[simp] theorem State.raise_clockStarted (s : State) (err : FatalError) : (s.raise err).clockStarted = s.clockStarted := rfl
@[simp] theorem State.raise_config (s : State) (err : FatalError) : (s.raise err).config = s.config := rfl
@[simp] theorem State.raise_schedule (s : State) (err : FatalError) : (s.raise err).schedule = s.schedule := rfl
@[simp] theorem State.raise_turn (s : State) (err : FatalError) : (s.raise err).turn = s.turn := rfl
@[simp] theorem State.raise_fault (s : State) (err : FatalError) : (s.raise err).fault = some err := rfl
@[simp] theorem State.raise_runActive (s : State) (err : FatalError) : (s.raise err).runActive = false := rfl
@[simp] theorem State.reg_raise (s : State) (err : FatalError) (q : Reg) : (s.raise err).reg q = s.reg q := by
  cases q <;> rfl

/-! ### `State.retired` -/

@[simp] theorem State.retired_a (s : State) (len cost : Nat) : (s.retired len cost).a = s.a := rfl
@[simp] theorem State.retired_b (s : State) (len cost : Nat) : (s.retired len cost).b = s.b := rfl
@[simp] theorem State.retired_c (s : State) (len cost : Nat) : (s.retired len cost).c = s.c := rfl
@[simp] theorem State.retired_d (s : State) (len cost : Nat) : (s.retired len cost).d = s.d := rfl
@[simp] theorem State.retired_e (s : State) (len cost : Nat) : (s.retired len cost).e = s.e := rfl
@[simp] theorem State.retired_h (s : State) (len cost : Nat) : (s.retired len cost).h = s.h := rfl
@[simp] theorem State.retired_l (s : State) (len cost : Nat) : (s.retired len cost).l = s.l := rfl
@[simp] theorem State.retired_f (s : State) (len cost : Nat) : (s.retired len cost).f = s.f := rfl
@[simp] theorem State.retired_sp (s : State) (len cost : Nat) : (s.retired len cost).sp = s.sp := rfl
@[simp] theorem State.retired_mem (s : State) (len cost : Nat) : (s.retired len cost).mem = s.mem := rfl
@[simp] theorem State.retired_halted (s : State) (len cost : Nat) : (s.retired len cost).halted = s.halted := rfl
@[simp] theorem State.retired_stopped (s : State) (len cost : Nat) : (s.retired len cost).stopped = s.stopped := rfl
@[simp] theorem State.retired_fault (s : State) (len cost : Nat) : (s.retired len cost).fault = s.fault := rfl
@[simp] theorem State.retired_runActive (s : State) (len cost : Nat) : (s.retired len cost).runActive = s.runActive := rfl
@[simp] theorem State.retired_totalCycles (s : State) (len cost : Nat) : (s.retired len cost).totalCycles = s.totalCycles := rfl
@[simp] theorem State.retired_clockStarted (s : State) (len cost : Nat) : (s.retired len cost).clockStarted = s.clockStarted := rfl
@[simp] theorem State.retired_config (s : State) (len cost : Nat) : (s.retired len cost).config = s.config := rfl
@[simp] theorem State.retired_schedule (s : State) (len cost : Nat) : (s.retired len cost).schedule = s.schedule := rfl
@[simp] theorem State.retired_turn (s : State) (len cost : Nat) : (s.retired len cost).turn = s.turn := rfl
@[simp] theorem State.retired_pc (s : State) (len cost : Nat) :
    (s.retired len cost).pc = s.pc + BitVec.ofNat 16 len := rfl
@[simp] theorem State.retired_cycleCount (s : State) (len cost : Nat) :
    (s.retired len cost).cycleCount = s.cycleCount + cost := rfl
@[simp] theorem State.reg_retired (s : State) (len cost : Nat) (q : Reg) :
    (s.retired len cost).reg q = s.reg q := by cases q <;> rfl
@[simp] theorem State.pair_retired (s : State) (len cost : Nat) (p : Pair) :
    (s.retired len cost).pair p = s.pair p := by cases p <;> rfl

/-! ### `State.tick` -/

@[simp] theorem State.tick_a (s : State) : (s.tick).a = s.a := by
  unfold State.tick; split <;> rfl
@[simp] theorem State.tick_b (s : State) : (s.tick).b = s.b := by
  unfold State.tick; split <;> rfl
@[simp] theorem State.tick_c (s : State) : (s.tick).c = s.c := by
  unfold State.tick; split <;> rfl
@[simp] theorem State.tick_d (s : State) : (s.tick).d = s.d := by
  unfold State.tick; split <;> rfl
@[simp] theorem State.tick_e (s : State) : (s.tick).e = s.e := by
  unfold State.tick; split <;> rfl
@[simp] theorem State.tick_h (s : State) : (s.tick).h = s.h := by
  unfold State.tick; split <;> rfl
@[simp] theorem State.tick_l (s : State) : (s.tick).l = s.l := by
  unfold State.tick; split <;> rfl
@[simp] theorem State.tick_f (s : State) : (s.tick).f = s.f := by
  unfold State.tick; split <;> rfl
@[simp] theorem State.tick_pc (s : State) : (s.tick).pc = s.pc := by
  unfold State.tick; split <;> rfl
@[simp] theorem State.tick_sp (s : State) : (s.tick).sp = s.sp := by
  unfold State.tick; split <;> rfl
@[simp] theorem State.tick_mem (s : State) : (s.tick).mem = s.mem := by
  unfold State.tick; split <;> rfl
@[simp] theorem State.tick_halted (s : State) : (s.tick).halted = s.halted := by
  unfold State.tick; split <;> rfl
@[simp] theorem State.tick_stopped (s : State) : (s.tick).stopped = s.stopped := by
  unfold State.tick; split <;> rfl
@[simp] theorem State.tick_cycleCount (s : State) : (s.tick).cycleCount = s.cycleCount := by
  unfold State.tick; split <;> rfl
@[simp] theorem State.tick_fault (s : State) : (s.tick).fault = s.fault := by
  unfold State.tick; split <;> rfl
@[simp] theorem State.tick_runActive (s : State) : (s.tick).runActive = s.runActive := by
  unfold State.tick; split <;> rfl
@[simp] theorem State.tick_clockStarted (s : State) : (s.tick).clockStarted = s.clockStarted := by
  unfold State.tick; split <;> rfl
@[simp] theorem State.tick_config (s : State) : (s.tick).config = s.config := by
  unfold State.tick; split <;> rfl
@[simp] theorem State.tick_schedule (s : State) : (s.tick).schedule = s.schedule := by
  unfold State.tick; split <;> rfl
@[simp] theorem State.tick_turn (s : State) : (s.tick).turn = s.turn := by
  unfold State.tick; split <;> rfl
@[simp] theorem State.tick_totalCycles (s : State) :
    s.tick.totalCycles = if s.clockStarted then s.totalCycles + 1 else s.totalCycles := by
  unfold State.tick; split <;> rfl

/-! ### `State.startClock` -/

@[simp] theorem State.startClock_a (s : State) : (s.startClock).a = s.a := rfl
@[simp] theorem State.startClock_b (s : State) : (s.startClock).b = s.b := rfl
@[simp] theorem State.startClock_c (s : State) : (s.startClock).c = s.c := rfl
@[simp] theorem State.startClock_d (s : State) : (s.startClock).d = s.d := rfl
@[simp] theorem State.startClock_e (s : State) : (s.startClock).e = s.e := rfl
@[simp] theorem State.startClock_h (s : State) : (s.startClock).h = s.h := rfl
@[simp] theorem State.startClock_l (s : State) : (s.startClock).l = s.l := rfl
@[simp] theorem State.startClock_f (s : State) : (s.startClock).f = s.f := rfl
@[simp] theorem State.startClock_pc (s : State) : (s.startClock).pc = s.pc := rfl
@[simp] theorem State.startClock_sp (s : State) : (s.startClock).sp = s.sp := rfl
@[simp] theorem State.startClock_mem (s : State) : (s.startClock).mem = s.mem := rfl
@[simp] theorem State.startClock_halted (s : State) : (s.startClock).halted = s.halted := rfl
@[simp] theorem State.startClock_stopped (s : State) : (s.startClock).stopped = s.stopped := rfl
@[simp] theorem State.startClock_cycleCount (s : State) : (s.startClock).cycleCount = s.cycleCount := rfl
@[simp] theorem State.startClock_fault (s : State) : (s.startClock).fault = s.fault := rfl
@[simp] theorem State.startClock_runActive (s : State) : (s.startClock).runActive = s.runActive := rfl
@[simp] theorem State.startClock_totalCycles (s : State) : (s.startClock).totalCycles = s.totalCycles := rfl
@[simp] theorem State.startClock_config (s : State) : (s.startClock).config = s.config := rfl
@[simp] theorem State.startClock_schedule (s : State) : (s.startClock).schedule = s.schedule := rfl
@[simp] theorem State.startClock_turn (s : State) : (s.startClock).turn = s.turn := rfl
@[simp] theorem State.startClock_clockStarted (s : State) : s.startClock.clockStarted = true := rfl

/-! ### `State.advanceSchedule` -/

@[simp] theorem State.advanceSchedule_a (s : State) : (s.advanceSchedule).a = s.a := rfl
@[simp] theorem State.advanceSchedule_b (s : State) : (s.advanceSchedule).b = s.b := rfl
@[simp] theorem State.advanceSchedule_c (s : State) : (s.advanceSchedule).c = s.c := rfl
@[simp] theorem State.advanceSchedule_d (s : State) : (s.advanceSchedule).d = s.d := rfl
@[simp] theorem State.advanceSchedule_e (s : State) : (s.advanceSchedule).e = s.e := rfl
@[simp] theorem State.advanceSchedule_h (s : State) : (s.advanceSchedule).h = s.h := rfl
@[simp] theorem State.advanceSchedule_l (s : State) : (s.advanceSchedule).l = s.l := rfl
@[simp] theorem State.advanceSchedule_f (s : State) : (s.advanceSchedule).f = s.f := rfl
@[simp] theorem State.advanceSchedule_pc (s : State) : (s.advanceSchedule).pc = s.pc := rfl
@[simp] theorem State.advanceSchedule_sp (s : State) : (s.advanceSchedule).sp = s.sp := rfl
@[simp] theorem State.advanceSchedule_mem (s : State) : (s.advanceSchedule).mem = s.mem := rfl
@[simp] theorem State.advanceSchedule_halted (s : State) : (s.advanceSchedule).halted = s.halted := rfl
@[simp] theorem State.advanceSchedule_stopped (s : State) : (s.advanceSchedule).stopped = s.stopped := rfl
@[simp] theorem State.advanceSchedule_cycleCount (s : State) : (s.advanceSchedule).cycleCount = s.cycleCount := rfl
@[simp] theorem State.advanceSchedule_fault (s : State) : (s.advanceSchedule).fault = s.fault := rfl
@[simp] theorem State.advanceSchedule_runActive (s : State) : (s.advanceSchedule).runActive = s.runActive := rfl
@[simp] theorem State.advanceSchedule_totalCycles (s : State) : (s.advanceSchedule).totalCycles = s.totalCycles := rfl
@[simp] theorem State.advanceSchedule_clockStarted (s : State) : (s.advanceSchedule).clockStarted = s.clockStarted := rfl
@[simp] theorem State.advanceSchedule_config (s : State) : (s.advanceSchedule).config = s.config := rfl
@[simp] theorem State.advanceSchedule_schedule (s : State) : s.advanceSchedule.schedule = s.plan.2 := rfl
@[simp] theorem State.advanceSchedule_turn (s : State) :
    s.advanceSchedule.turn = if s.schedule.isEmpty then s.turn + 1 else s.turn := rfl

/-! ### `State.leaveRunIfHalted` -/

@[simp] theorem State.leaveRunIfHalted_a (s : State) : (s.leaveRunIfHalted).a = s.a := by
  unfold State.leaveRunIfHalted; split <;> rfl
@[simp] theorem State.leaveRunIfHalted_b (s : State) : (s.leaveRunIfHalted).b = s.b := by
  unfold State.leaveRunIfHalted; split <;> rfl
@[simp] theorem State.leaveRunIfHalted_c (s : State) : (s.leaveRunIfHalted).c = s.c := by
  unfold State.leaveRunIfHalted; split <;> rfl
@[simp] theorem State.leaveRunIfHalted_d (s : State) : (s.leaveRunIfHalted).d = s.d := by
  unfold State.leaveRunIfHalted; split <;> rfl
@[simp] theorem State.leaveRunIfHalted_e (s : State) : (s.leaveRunIfHalted).e = s.e := by
  unfold State.leaveRunIfHalted; split <;> rfl
@[simp] theorem State.leaveRunIfHalted_h (s : State) : (s.leaveRunIfHalted).h = s.h := by
  unfold State.leaveRunIfHalted; split <;> rfl
@[simp] theorem State.leaveRunIfHalted_l (s : State) : (s.leaveRunIfHalted).l = s.l := by
  unfold State.leaveRunIfHalted; split <;> rfl
@[simp] theorem State.leaveRunIfHalted_f (s : State) : (s.leaveRunIfHalted).f = s.f := by
  unfold State.leaveRunIfHalted; split <;> rfl
@[simp] theorem State.leaveRunIfHalted_pc (s : State) : (s.leaveRunIfHalted).pc = s.pc := by
  unfold State.leaveRunIfHalted; split <;> rfl
@[simp] theorem State.leaveRunIfHalted_sp (s : State) : (s.leaveRunIfHalted).sp = s.sp := by
  unfold State.leaveRunIfHalted; split <;> rfl
@[simp] theorem State.leaveRunIfHalted_mem (s : State) : (s.leaveRunIfHalted).mem = s.mem := by
  unfold State.leaveRunIfHalted; split <;> rfl
@[simp] theorem State.leaveRunIfHalted_halted (s : State) : (s.leaveRunIfHalted).halted = s.halted := by
  unfold State.leaveRunIfHalted; split <;> rfl
@[simp] theorem State.leaveRunIfHalted_stopped (s : State) : (s.leaveRunIfHalted).stopped = s.stopped := by
  unfold State.leaveRunIfHalted; split <;> rfl
@[simp] theorem State.leaveRunIfHalted_cycleCount (s : State) : (s.leaveRunIfHalted).cycleCount = s.cycleCount := by
  unfold State.leaveRunIfHalted; split <;> rfl
@[simp] theorem State.leaveRunIfHalted_fault (s : State) : (s.leaveRunIfHalted).fault = s.fault := by
  unfold State.leaveRunIfHalted; split <;> rfl
@[simp] theorem State.leaveRunIfHalted_totalCycles (s : State) : (s.leaveRunIfHalted).totalCycles = s.totalCycles := by
  unfold State.leaveRunIfHalted; split <;> rfl
@[simp] theorem State.leaveRunIfHalted_clockStarted (s : State) : (s.leaveRunIfHalted).clockStarted = s.clockStarted := by
  unfold State.leaveRunIfHalted; split <;> rfl
@[simp] theorem State.leaveRunIfHalted_config (s : State) : (s.leaveRunIfHalted).config = s.config := by
  unfold State.leaveRunIfHalted; split <;> rfl
@[simp] theorem State.leaveRunIfHalted_schedule (s : State) : (s.leaveRunIfHalted).schedule = s.schedule := by
  unfold State.leaveRunIfHalted; split <;> rfl
@[simp] theorem State.leaveRunIfHalted_turn (s : State) : (s.leaveRunIfHalted).turn = s.turn := by
  unfold State.leaveRunIfHalted; split <;> rfl
@[simp] theorem State.leaveRunIfHalted_runActive (s : State) :
    s.leaveRunIfHalted.runActive = (!s.halted && s.runActive) := by
  unfold State.leaveRunIfHalted; split <;> simp_all

end Sys2Proof.Machine
end

