-- ==== Sys2Proof/Laws/Ops.lean ====
section
/-! SUPPORT. One lemma for each shared operation that says all it can do; a proof cites it and does not unfold
the operation. -/

namespace Sys2Proof.Machine

/-! ### Outcomes -/

@[simp] theorem mapNext_next (g : State → State) (s : State) : mapNext g (.next s) = .next (g s) := rfl

theorem mapNext_eq_next (g : State → State) (o : Host.Outcome State Fault Refusal) (t : State) :
    mapNext g o = .next t ↔ ∃ s, o = .next s ∧ g s = t := by
  cases o <;> simp [mapNext]

/-! ### Checked accesses -/

theorem inStore_iff (addr n : Nat) : inStore addr n = true ↔ addr + n ≤ 65535 :=
  decide_eq_true_iff

/-- `MemRead(addr, 1)`: the byte inside the store, the error at 0xFFFF. -/
theorem Memory.load8_cases (m : Memory) (addr : Word) :
    (addr.toNat < 65535 ∧ m.load8 addr = .ok (m.read addr.toNat)) ∨
      (addr = 0xFFFF#16 ∧ m.load8 addr = .error (.memoryBoundsViolation 0xFFFF 1)) := by
  by_cases h : addr = 0xFFFF#16
  · right; subst h; exact ⟨rfl, rfl⟩
  · left
    have hlt : addr.toNat < 65535 := by
      have := addr.isLt
      have hne : addr.toNat ≠ 65535 := fun hh => h (BitVec.eq_of_toNat_eq (by simpa using hh))
      omega
    refine ⟨hlt, ?_⟩
    have hin : inStore addr.toNat 1 = true := (inStore_iff _ _).2 (by omega)
    simp [Memory.load8, hin]

/-- `MemRead(addr, 2)`: the two bytes, little-endian, below 0xFFFE, the error from there on. -/
theorem Memory.load16_cases (m : Memory) (addr : Word) :
    (addr.toNat < 0xFFFE ∧
        m.load16 addr = .ok (joinBytes (m.read (addr.toNat + 1)) (m.read addr.toNat))) ∨
      (0xFFFE ≤ addr.toNat ∧ m.load16 addr = .error (.memoryBoundsViolation addr.toNat 2)) := by
  unfold Memory.load16
  split
  · next hin => left; exact ⟨by have := (inStore_iff _ _).1 hin; omega, rfl⟩
  · next hin => right; exact ⟨by rw [inStore_iff] at hin; omega, rfl⟩

/-- The store's write: all the bytes, or the error and none. -/
theorem Memory.store_cases (m : Memory) (addr : Nat) (bytes : List Byte) :
    (addr + bytes.length ≤ 65535 ∧ m.store addr bytes = .ok (m.writeBytes addr bytes)) ∨
      (65535 < addr + bytes.length ∧
        m.store addr bytes = .error (.memoryBoundsViolation addr bytes.length)) := by
  unfold Memory.store
  split
  · next hin => left; exact ⟨(inStore_iff _ _).1 hin, rfl⟩
  · next hin => right; exact ⟨by rw [inStore_iff] at hin; omega, rfl⟩

/-- A storing instruction: it writes all its bytes and retires, or raises and writes none. -/
theorem storeAndRetire_cases (addr : Word) (bytes : List Byte) (len cost : Nat) (s : State) :
    (addr.toNat + bytes.length ≤ 65535 ∧
        storeAndRetire addr bytes len cost s =
          .next ({ s with mem := s.mem.writeBytes addr.toNat bytes }.retired len cost)) ∨
      (65535 < addr.toNat + bytes.length ∧
        storeAndRetire addr bytes len cost s =
          .next (s.raise (.memoryBoundsViolation addr.toNat bytes.length))) := by
  rcases Memory.store_cases s.mem addr.toNat bytes with ⟨h, he⟩ | ⟨h, he⟩
  · left; exact ⟨h, by simp only [storeAndRetire, he, retire]⟩
  · right; exact ⟨h, by simp only [storeAndRetire, he]⟩

/-! ### Bytes and pairs -/

@[simp] theorem joinBytes_high_low (v : Word) : joinBytes (highByte v) (lowByte v) = v := by
  simp only [joinBytes, highByte, lowByte]
  exact BitVec.extractLsb'_append_extractLsb'_eq_extractLsb' (by decide) |>.trans (by simp)

theorem joinBytes_toNat (x y : Byte) : (joinBytes x y).toNat = x.toNat * 256 + y.toNat := by
  simp only [joinBytes, BitVec.toNat_append]
  rw [← Nat.shiftLeft_add_eq_or_of_lt y.isLt, Nat.shiftLeft_eq]

theorem highByte_toNat (v : Word) : (highByte v).toNat = v.toNat / 256 := by
  have := v.isLt
  simp only [highByte, BitVec.extractLsb'_toNat, Nat.shiftRight_eq_div_pow]
  omega

theorem lowByte_toNat (v : Word) : (lowByte v).toNat = v.toNat % 256 := by
  simp [lowByte]

/-! ### Flags -/

@[simp] theorem flagZ_writeFlags (f : Byte) (z n h c : Bool) : flagZ (writeFlags f z n h c) = z := by
  cases z <;> cases n <;> cases h <;> cases c <;> simp [flagZ, writeFlags, encodeFlags]

@[simp] theorem flagN_writeFlags (f : Byte) (z n h c : Bool) : flagN (writeFlags f z n h c) = n := by
  cases z <;> cases n <;> cases h <;> cases c <;> simp [flagN, writeFlags, encodeFlags]

@[simp] theorem flagH_writeFlags (f : Byte) (z n h c : Bool) : flagH (writeFlags f z n h c) = h := by
  cases z <;> cases n <;> cases h <;> cases c <;> simp [flagH, writeFlags, encodeFlags]

@[simp] theorem flagC_writeFlags (f : Byte) (z n h c : Bool) : flagC (writeFlags f z n h c) = c := by
  cases z <;> cases n <;> cases h <;> cases c <;> simp [flagC, writeFlags, encodeFlags]

@[simp] theorem lowNibble_writeFlags (f : Byte) (z n h c : Bool) :
    writeFlags f z n h c &&& 0x0F#8 = f &&& 0x0F#8 := by
  unfold writeFlags encodeFlags
  revert f z n h c
  decide

end Sys2Proof.Machine
end

