-- ==== Sys2Proof/Laws/Decode.lean ====
section
/-! SUPPORT. What the dispatcher can answer (`dispatch_cases`), and what the fetch then does. -/

namespace Sys2Proof

open Sys2Proof.Machine

/-- The dispatcher answers none, or a row of one of three shapes, whose instructions have the byte as their
opcode and the shape's immediate bytes. -/
theorem dispatch_cases (op : Byte) :
    dispatch op = none ∨
    (∃ mk, dispatch op = some (.opD8 mk) ∧ ∀ d, (mk d).opcode = op ∧ (mk d).immediateBytes = [d]) ∨
    (∃ mk, dispatch op = some (.opD16 mk) ∧
      ∀ v, (mk v).opcode = op ∧ (mk v).immediateBytes = [lowByte v, highByte v]) ∨
    ∃ i, (dispatch op = some (.op i) ∨ dispatch op = some (.opPad i)) ∧ i.opcode = op ∧
      i.immediateBytes = [] := by
  have hop : op = BitVec.ofNat 8 op.toNat := by simp
  unfold dispatch
  split
  case h_44 => exact .inl rfl
  all_goals
    next h =>
    rw [h] at hop
    subst hop
    first
    | exact .inr (.inl ⟨_, rfl, fun _ => ⟨rfl, rfl⟩⟩)
    | exact .inr (.inr (.inl ⟨_, rfl, fun _ => ⟨rfl, rfl⟩⟩))
    | exact .inr (.inr (.inr ⟨_, .inl rfl, rfl, rfl⟩))
    | exact .inr (.inr (.inr ⟨_, .inr rfl, rfl, rfl⟩))

/-- The row the dispatcher finds for an instruction's own opcode makes that instruction of its immediate. -/
theorem dispatch_opcode (i : Instr) :
    dispatch i.opcode = some (.op i) ∨ dispatch i.opcode = some (.opPad i) ∨
    (∃ mk d, dispatch i.opcode = some (.opD8 mk) ∧ i = mk d) ∨
    ∃ mk v, dispatch i.opcode = some (.opD16 mk) ∧ i = mk v := by
  cases i <;>
    first
    | exact .inl rfl
    | exact .inr (.inl rfl)
    | exact .inr (.inr (.inl ⟨_, _, rfl, rfl⟩))
    | exact .inr (.inr (.inr ⟨_, _, rfl, rfl⟩))

/-- The opcode fetch below 0xFFFF reads the byte at pc. -/
theorem load8_pc_of_ne (s : State) (hpc : s.pc ≠ 0xFFFF#16) :
    s.mem.load8 s.pc = .ok (s.mem.read s.pc.toNat) := by
  rcases Memory.load8_cases s.mem s.pc with ⟨-, h⟩ | ⟨h, -⟩
  · exact h
  · exact absurd h hpc

/-- The opcode fetch at 0xFFFF raises. -/
theorem fetch_at_top (s : State) (hpc : s.pc = 0xFFFF#16) :
    fetch s = .error (.memoryBoundsViolation 0xFFFF 1) := by
  simp only [fetch, hpc] <;> rfl

/-- Below 0xFFFF the fetch is the dispatch of the byte at pc and then its immediate. -/
theorem fetch_of_ne (s : State) (hpc : s.pc ≠ 0xFFFF#16) :
    fetch s = match dispatch (s.mem.read s.pc.toNat) with
      | none => .error (.unimplementedOpcode (s.mem.read s.pc.toNat) s.pc)
      | some row => readImmediate row s := by
  simp only [fetch, load8_pc_of_ne s hpc] <;> cases dispatch (s.mem.read s.pc.toNat) <;> rfl

/-- pc + 1 does not wrap below 0xFFFF. -/
theorem pc_succ_toNat (s : State) (hpc : s.pc ≠ 0xFFFF#16) : (s.pc + 1#16).toNat = s.pc.toNat + 1 := by
  have hlt := s.pc.isLt
  have hne : s.pc.toNat ≠ 65535 := fun h => hpc (BitVec.eq_of_toNat_eq (by simpa using h))
  rw [BitVec.toNat_add]
  simp only [BitVec.toNat_ofNat]
  omega

end Sys2Proof
end

