-- ==== Sys2Proof/Laws/Exec.lean ====
section
/-! SUPPORT. What the meaning of any instruction can do, said once (`exec_cases`), and what follows for
`execute`, `poll` and `step`. -/

namespace Sys2Proof.Machine

/-- What every effect leaves, whatever the instruction, before pc and cycle_count move. -/
structure Effect (i : Instr) (s u : State) : Prop where
  pc : u.pc = s.pc
  sp : u.sp = s.sp
  cycleCount : u.cycleCount = s.cycleCount
  fault : u.fault = s.fault
  runActive : u.runActive = s.runActive
  totalCycles : u.totalCycles = s.totalCycles
  clockStarted : u.clockStarted = s.clockStarted
  config : u.config = s.config
  schedule : u.schedule = s.schedule
  turn : u.turn = s.turn
  halted : u.halted = (s.halted || decide (i = .halt))
  stopped : u.stopped = (s.stopped || decide (i = .stop))
  lowNibble : u.f &&& 0x0F#8 = s.f &&& 0x0F#8
  memory : s.mem.wf = true → u.mem.wf = true

/-- A meaning retires an effect with its declared length and cost, or raises; only a store raises. -/
theorem exec_cases (i : Instr) (s : State) :
    (∃ u, exec i s = .next (u.retired (i.length s.config) i.cost) ∧ Effect i s u) ∨
      (i ∈ [.ldIndBCA, .ldIndDEA] ∨ ∃ a16, i = .ldIndA16SP a16) ∧
        ∃ err, exec i s = .next (s.raise err) := by
  cases i
  case ldIndBCA =>
    rcases storeAndRetire_cases (s.indirect .BC) [s.reg .A] 1 8 s with ⟨h, he⟩ | ⟨_, he⟩
    · exact .inl ⟨_, he, by constructor <;> first | rfl | exact fun hm => Memory.wf_writeBytes _ _ _ hm h | simp⟩
    · exact .inr ⟨by simp, _, he⟩
  case ldIndDEA =>
    rcases storeAndRetire_cases (s.indirect .DE) [s.reg .A] 1 8 s with ⟨h, he⟩ | ⟨_, he⟩
    · exact .inl ⟨_, he, by constructor <;> first | rfl | exact fun hm => Memory.wf_writeBytes _ _ _ hm h | simp⟩
    · exact .inr ⟨by simp, _, he⟩
  case ldIndA16SP a16 =>
    rcases storeAndRetire_cases a16 s.spBytes 3 20 s with ⟨h, he⟩ | ⟨_, he⟩
    · exact .inl ⟨_, he, by constructor <;> first | rfl | exact fun hm => Memory.wf_writeBytes _ _ _ hm h | simp⟩
    · exact .inr ⟨by simp, _, he⟩
  all_goals
    refine .inl ⟨_, rfl, ?_⟩
    constructor <;>
      first
      | rfl
      | simp [State.loadReg, State.loadPair, State.inc8, State.dec8, State.inc16, State.dec16, State.rotated,
          State.addHl]

/-- No meaning stops: every instruction of the table answers a next state from every state. -/
theorem exec_total (i : Instr) (s : State) : ∃ t, exec i s = .next t := by
  rcases exec_cases i s with ⟨u, he, -⟩ | ⟨-, err, he⟩
  · exact ⟨_, he⟩
  · exact ⟨_, he⟩

/-- One execution fetches and runs, or raises the error of the fetch. -/
theorem execute_cases (s : State) :
    (∃ i, fetch s = .ok i ∧ execute s = exec i s) ∨
      ∃ err, fetch s = .error err ∧ execute s = .next (s.raise err) := by
  unfold execute
  cases hf : fetch s with
  | ok i => exact .inl ⟨i, rfl, rfl⟩
  | error err => exact .inr ⟨err, rfl, rfl⟩

/-- One execution retires the effect of the instruction fetched, or raises. -/
theorem execute_retires_or_raises (s : State) :
    (∃ i u, fetch s = .ok i ∧ execute s = .next (u.retired (i.length s.config) i.cost) ∧ Effect i s u) ∨
      ∃ err, execute s = .next (s.raise err) := by
  rcases execute_cases s with ⟨i, hf, he⟩ | ⟨err, -, he⟩
  · rcases exec_cases i s with ⟨u, hx, hu⟩ | ⟨-, err, hx⟩
    · exact .inl ⟨i, u, hf, he.trans hx, hu⟩
    · exact .inr ⟨err, he.trans hx⟩
  · exact .inr ⟨err, he⟩

/-- One poll changes nothing, or runs one step and the loop test, with a step enabled and the gate open. -/
theorem poll_cases (s : State) :
    poll s = .next s ∧ (s.cpuEnabled && s.gateOpen) = false ∨
      ∃ t, s.cpuEnabled = true ∧ s.gateOpen = true ∧ execute s = .next t ∧
        poll s = .next t.leaveRunIfHalted := by
  unfold poll
  by_cases h : (s.cpuEnabled && s.gateOpen) = true
  · right
    obtain ⟨he, hg⟩ := Bool.and_eq_true_iff.1 h
    rcases execute_retires_or_raises s with ⟨i, u, -, hx, -⟩ | ⟨err, hx⟩
    · exact ⟨_, he, hg, hx, by rw [if_pos h, hx]; rfl⟩
    · exact ⟨_, he, hg, hx, by rw [if_pos h, hx]; rfl⟩
  · left
    rw [if_neg h]
    exact ⟨rfl, by simpa using h⟩

/-- Every agent's move answers a next state. -/
theorem move_total (m : Move) (s : State) : ∃ t, move m s = .next t := by
  cases m with
  | clock => exact ⟨_, rfl⟩
  | host a => exact ⟨_, rfl⟩
  | cpu =>
    rcases poll_cases s with ⟨h, -⟩ | ⟨t, -, -, -, h⟩
    · exact ⟨_, h⟩
    · exact ⟨_, h⟩

/-- A host move leaves the moves to come. -/
theorem State.hostMove_schedule (s : State) (a : HostAction) :
    (s.hostMove a).schedule = s.schedule ∧ (s.hostMove a).turn = s.turn := by
  have hwrite : (s.hostWrite a).schedule = s.schedule ∧ (s.hostWrite a).turn = s.turn := by
    cases a <;> simp only [State.hostWrite] <;> first | exact ⟨rfl, rfl⟩ | simp | (split <;> exact ⟨rfl, rfl⟩)
  unfold State.hostMove
  split
  · exact ⟨rfl, rfl⟩
  split
  · exact ⟨rfl, rfl⟩
  split
  · exact ⟨rfl, rfl⟩
  · exact hwrite

/-- A move of any agent leaves the moves to come. -/
theorem move_schedule (m : Move) (s t : State) (h : move m s = .next t) :
    t.schedule = s.schedule ∧ t.turn = s.turn := by
  cases m with
  | clock => cases h; simp
  | host a => cases h; exact s.hostMove_schedule a
  | cpu =>
    rcases poll_cases s with ⟨hp, -⟩ | ⟨u, -, -, hx, hp⟩
    · cases hp.symm.trans h; exact ⟨rfl, rfl⟩
    · cases hp.symm.trans h
      rcases execute_retires_or_raises s with ⟨i, w, -, hr, eff⟩ | ⟨err, hr⟩
      · cases hr.symm.trans hx; simp [eff.schedule, eff.turn]
      · cases hr.symm.trans hx; simp

/-- A step is one agent's move and the advance of the schedule, and never stops. -/
theorem step_cases (s : State) : ∃ t, move s.nextMove s = .next t ∧ step s = .next t.advanceSchedule := by
  obtain ⟨t, ht⟩ := move_total s.nextMove s
  exact ⟨t, ht, by rw [step, ht]; rfl⟩

/-- The costs of the rows are never zero and never above 20 (spec/40_engine.md R107). -/
theorem cost_bounds (i : Instr) : 4 ≤ i.cost ∧ i.cost ≤ 20 := by
  cases i <;> simp only [Instr.cost, Instr.opcode] <;> decide

end Sys2Proof.Machine
end

