-- ==== Sys2Proof/Laws/PerInstr.lean ====
section
/-! SUPPORT. The family `Shape` of statements about every instruction as syntax: its encoding has the format of
spec/30_encoding.md R60 and its declared cost is a row of spec/40_engine.md R107. One lemma per constructor. -/

namespace Sys2Proof.Laws.Shape

open Sys2Proof Sys2Proof.Machine

/-- The opcode is one of the 43; the encoding begins with it and has at most three bytes; the declared length is
1, 2 or 3; the cost is 4, 8, 12 or 20; and an instruction placed at the reset entry point is well formed. -/
structure Statement (i : Instr) : Prop where
  opcode : i.opcode ∈ Safety.implemented
  encoding : (encode i).head? = some i.opcode ∧ (encode i).length ≤ 3
  length : ∀ c : Config, i.length c ∈ [1, 2, 3]
  cost : i.cost ∈ [4, 8, 12, 20]
  placed : i.wellFormedAt entryPc = true

theorem phLen_mem (p : PhLen) : phLen p ∈ [1, 2, 3] := by cases p <;> decide

theorem nop : Statement .nop :=
  ⟨by decide, by decide, fun _ => by simp [Instr.length], by decide, rfl⟩

theorem ldBCd16 (d16 : Word) : Statement (.ldBCd16 d16) where
  opcode := (by decide : (.ldBCd16 0 : Instr).opcode ∈ Safety.implemented)
  encoding := ⟨rfl, (by decide : (encode (.ldBCd16 0)).length ≤ 3)⟩
  length := fun c => (by decide : (.ldBCd16 0 : Instr).length defaultConfig ∈ [1, 2, 3])
  cost := (by decide : (.ldBCd16 0 : Instr).cost ∈ [4, 8, 12, 20])
  placed := rfl

theorem ldIndBCA : Statement .ldIndBCA :=
  ⟨by decide, by decide, fun _ => by simp [Instr.length], by decide, rfl⟩

theorem incBC : Statement .incBC :=
  ⟨by decide, by decide, fun _ => by simp [Instr.length], by decide, rfl⟩

theorem incB : Statement .incB :=
  ⟨by decide, by decide, fun _ => by simp [Instr.length], by decide, rfl⟩

theorem decB : Statement .decB :=
  ⟨by decide, by decide, fun _ => by simp [Instr.length], by decide, rfl⟩

theorem ldBd8 (d8 : Byte) : Statement (.ldBd8 d8) where
  opcode := (by decide : (.ldBd8 0 : Instr).opcode ∈ Safety.implemented)
  encoding := ⟨rfl, (by decide : (encode (.ldBd8 0)).length ≤ 3)⟩
  length := fun c => (by decide : (.ldBd8 0 : Instr).length defaultConfig ∈ [1, 2, 3])
  cost := (by decide : (.ldBd8 0 : Instr).cost ∈ [4, 8, 12, 20])
  placed := rfl

theorem rlca : Statement .rlca :=
  ⟨by decide, by decide, fun _ => by simp [Instr.length], by decide, rfl⟩

theorem ldIndA16SP (a16 : Word) : Statement (.ldIndA16SP a16) where
  opcode := (by decide : (.ldIndA16SP 0 : Instr).opcode ∈ Safety.implemented)
  encoding := ⟨rfl, (by decide : (encode (.ldIndA16SP 0)).length ≤ 3)⟩
  length := fun c => (by decide : (.ldIndA16SP 0 : Instr).length defaultConfig ∈ [1, 2, 3])
  cost := (by decide : (.ldIndA16SP 0 : Instr).cost ∈ [4, 8, 12, 20])
  placed := rfl

theorem addHLBC : Statement .addHLBC :=
  ⟨by decide, by decide, fun _ => by simp [Instr.length], by decide, rfl⟩

theorem ldAPh0A (ph : Byte) : Statement (.ldAPh0A ph) where
  opcode := (by decide : (.ldAPh0A 0 : Instr).opcode ∈ Safety.implemented)
  encoding := ⟨rfl, (by decide : (encode (.ldAPh0A 0)).length ≤ 3)⟩
  length := fun c => phLen_mem _
  cost := (by decide : (.ldAPh0A 0 : Instr).cost ∈ [4, 8, 12, 20])
  placed := rfl

theorem decBC : Statement .decBC :=
  ⟨by decide, by decide, fun _ => by simp [Instr.length], by decide, rfl⟩

theorem incC : Statement .incC :=
  ⟨by decide, by decide, fun _ => by simp [Instr.length], by decide, rfl⟩

theorem decC : Statement .decC :=
  ⟨by decide, by decide, fun _ => by simp [Instr.length], by decide, rfl⟩

theorem ldCd8 (d8 : Byte) : Statement (.ldCd8 d8) where
  opcode := (by decide : (.ldCd8 0 : Instr).opcode ∈ Safety.implemented)
  encoding := ⟨rfl, (by decide : (encode (.ldCd8 0)).length ≤ 3)⟩
  length := fun c => (by decide : (.ldCd8 0 : Instr).length defaultConfig ∈ [1, 2, 3])
  cost := (by decide : (.ldCd8 0 : Instr).cost ∈ [4, 8, 12, 20])
  placed := rfl

theorem rrca : Statement .rrca :=
  ⟨by decide, by decide, fun _ => by simp [Instr.length], by decide, rfl⟩

theorem stop : Statement .stop :=
  ⟨by decide, by decide, fun _ => by simp [Instr.length], by decide, rfl⟩

theorem ldDEd16 (d16 : Word) : Statement (.ldDEd16 d16) where
  opcode := (by decide : (.ldDEd16 0 : Instr).opcode ∈ Safety.implemented)
  encoding := ⟨rfl, (by decide : (encode (.ldDEd16 0)).length ≤ 3)⟩
  length := fun c => (by decide : (.ldDEd16 0 : Instr).length defaultConfig ∈ [1, 2, 3])
  cost := (by decide : (.ldDEd16 0 : Instr).cost ∈ [4, 8, 12, 20])
  placed := rfl

theorem ldIndDEA : Statement .ldIndDEA :=
  ⟨by decide, by decide, fun _ => by simp [Instr.length], by decide, rfl⟩

theorem incDE : Statement .incDE :=
  ⟨by decide, by decide, fun _ => by simp [Instr.length], by decide, rfl⟩

theorem incD : Statement .incD :=
  ⟨by decide, by decide, fun _ => by simp [Instr.length], by decide, rfl⟩

theorem decD : Statement .decD :=
  ⟨by decide, by decide, fun _ => by simp [Instr.length], by decide, rfl⟩

theorem ldDd8 (d8 : Byte) : Statement (.ldDd8 d8) where
  opcode := (by decide : (.ldDd8 0 : Instr).opcode ∈ Safety.implemented)
  encoding := ⟨rfl, (by decide : (encode (.ldDd8 0)).length ≤ 3)⟩
  length := fun c => (by decide : (.ldDd8 0 : Instr).length defaultConfig ∈ [1, 2, 3])
  cost := (by decide : (.ldDd8 0 : Instr).cost ∈ [4, 8, 12, 20])
  placed := rfl

theorem rla : Statement .rla :=
  ⟨by decide, by decide, fun _ => by simp [Instr.length], by decide, rfl⟩

theorem ldAPh1A (ph : Byte) : Statement (.ldAPh1A ph) where
  opcode := (by decide : (.ldAPh1A 0 : Instr).opcode ∈ Safety.implemented)
  encoding := ⟨rfl, (by decide : (encode (.ldAPh1A 0)).length ≤ 3)⟩
  length := fun c => phLen_mem _
  cost := (by decide : (.ldAPh1A 0 : Instr).cost ∈ [4, 8, 12, 20])
  placed := rfl

theorem decDE : Statement .decDE :=
  ⟨by decide, by decide, fun _ => by simp [Instr.length], by decide, rfl⟩

theorem incE : Statement .incE :=
  ⟨by decide, by decide, fun _ => by simp [Instr.length], by decide, rfl⟩

theorem decE : Statement .decE :=
  ⟨by decide, by decide, fun _ => by simp [Instr.length], by decide, rfl⟩

theorem ldEd8 (d8 : Byte) : Statement (.ldEd8 d8) where
  opcode := (by decide : (.ldEd8 0 : Instr).opcode ∈ Safety.implemented)
  encoding := ⟨rfl, (by decide : (encode (.ldEd8 0)).length ≤ 3)⟩
  length := fun c => (by decide : (.ldEd8 0 : Instr).length defaultConfig ∈ [1, 2, 3])
  cost := (by decide : (.ldEd8 0 : Instr).cost ∈ [4, 8, 12, 20])
  placed := rfl

theorem rra : Statement .rra :=
  ⟨by decide, by decide, fun _ => by simp [Instr.length], by decide, rfl⟩

theorem ldHLd16 (d16 : Word) : Statement (.ldHLd16 d16) where
  opcode := (by decide : (.ldHLd16 0 : Instr).opcode ∈ Safety.implemented)
  encoding := ⟨rfl, (by decide : (encode (.ldHLd16 0)).length ≤ 3)⟩
  length := fun c => (by decide : (.ldHLd16 0 : Instr).length defaultConfig ∈ [1, 2, 3])
  cost := (by decide : (.ldHLd16 0 : Instr).cost ∈ [4, 8, 12, 20])
  placed := rfl

theorem incHL : Statement .incHL :=
  ⟨by decide, by decide, fun _ => by simp [Instr.length], by decide, rfl⟩

theorem incH : Statement .incH :=
  ⟨by decide, by decide, fun _ => by simp [Instr.length], by decide, rfl⟩

theorem decH : Statement .decH :=
  ⟨by decide, by decide, fun _ => by simp [Instr.length], by decide, rfl⟩

theorem ldHd8 (d8 : Byte) : Statement (.ldHd8 d8) where
  opcode := (by decide : (.ldHd8 0 : Instr).opcode ∈ Safety.implemented)
  encoding := ⟨rfl, (by decide : (encode (.ldHd8 0)).length ≤ 3)⟩
  length := fun c => (by decide : (.ldHd8 0 : Instr).length defaultConfig ∈ [1, 2, 3])
  cost := (by decide : (.ldHd8 0 : Instr).cost ∈ [4, 8, 12, 20])
  placed := rfl

theorem decHL : Statement .decHL :=
  ⟨by decide, by decide, fun _ => by simp [Instr.length], by decide, rfl⟩

theorem incL : Statement .incL :=
  ⟨by decide, by decide, fun _ => by simp [Instr.length], by decide, rfl⟩

theorem decL : Statement .decL :=
  ⟨by decide, by decide, fun _ => by simp [Instr.length], by decide, rfl⟩

theorem ldLd8 (d8 : Byte) : Statement (.ldLd8 d8) where
  opcode := (by decide : (.ldLd8 0 : Instr).opcode ∈ Safety.implemented)
  encoding := ⟨rfl, (by decide : (encode (.ldLd8 0)).length ≤ 3)⟩
  length := fun c => (by decide : (.ldLd8 0 : Instr).length defaultConfig ∈ [1, 2, 3])
  cost := (by decide : (.ldLd8 0 : Instr).cost ∈ [4, 8, 12, 20])
  placed := rfl

theorem incA : Statement .incA :=
  ⟨by decide, by decide, fun _ => by simp [Instr.length], by decide, rfl⟩

theorem decA : Statement .decA :=
  ⟨by decide, by decide, fun _ => by simp [Instr.length], by decide, rfl⟩

theorem ldAd8 (d8 : Byte) : Statement (.ldAd8 d8) where
  opcode := (by decide : (.ldAd8 0 : Instr).opcode ∈ Safety.implemented)
  encoding := ⟨rfl, (by decide : (encode (.ldAd8 0)).length ≤ 3)⟩
  length := fun c => (by decide : (.ldAd8 0 : Instr).length defaultConfig ∈ [1, 2, 3])
  cost := (by decide : (.ldAd8 0 : Instr).cost ∈ [4, 8, 12, 20])
  placed := rfl

theorem halt : Statement .halt :=
  ⟨by decide, by decide, fun _ => by simp [Instr.length], by decide, rfl⟩

end Sys2Proof.Laws.Shape
end

