-- ==== Sys2Proof/Laws/Schedule.lean ====
section
/-! SUPPORT. Which moves come next (spec/40_engine.md R100; spec/47_clock.md R217); and no instruction reads the
clock's counter or the schedule (spec/10_state.md R30): replacing them before a step or after it comes to the same. -/

namespace Sys2Proof.Machine

/-! ### The moves to come -/

/-- A round is free moves, a tick, free moves, a poll. -/
theorem roundOf_moves (beforeTick beforePoll : List Move) :
    (roundOf beforeTick beforePoll).1 :: (roundOf beforeTick beforePoll).2 =
      beforeTick ++ .clock :: (beforePoll ++ [.cpu]) := by
  cases beforeTick <;> rfl

theorem State.plan_of_cons {s : State} {m : Move} {rest : List Move} (h : s.schedule = m :: rest) :
    s.plan = (m, rest) := by
  rw [State.plan, h]

theorem State.plan_of_nil {s : State} (h : s.schedule = []) : s.plan = freeRound s.turn := by
  rw [State.plan, h]

/-- What is left of the moves to come after a step. -/
theorem step_schedule (s t : State) (h : step s = .next t) : t.schedule = s.plan.2 := by
  obtain ⟨u, hu, hs⟩ := step_cases s
  have hkeep : u.schedule = s.schedule ∧ u.turn = s.turn := move_schedule s.nextMove s u hu
  rw [hs] at h
  cases h
  simp [State.plan, hkeep.1, hkeep.2]

/-! ### No instruction reads the clock or the schedule -/

/-- `s` with another clock counter and another schedule. -/
def State.withClock (s : State) (total : Nat) (moves : List Move) (turn : Nat) : State :=
  { s with totalCycles := total, schedule := moves, turn := turn }

theorem storeAndRetire_withClock (addr : Word) (bytes : List Byte) (len cost : Nat) (s : State) (total : Nat)
    (moves : List Move) (turn : Nat) :
    storeAndRetire addr bytes len cost (s.withClock total moves turn) =
      mapNext (fun t => t.withClock total moves turn) (storeAndRetire addr bytes len cost s) := by
  have hmem : (s.withClock total moves turn).mem = s.mem := rfl
  unfold storeAndRetire
  rw [hmem]
  cases s.mem.store addr.toNat bytes <;> rfl

theorem exec_withClock (i : Instr) (s : State) (total : Nat) (moves : List Move) (turn : Nat) :
    exec i (s.withClock total moves turn) =
      mapNext (fun t => t.withClock total moves turn) (exec i s) := by
  cases i <;> first | rfl | exact storeAndRetire_withClock _ _ _ _ s total moves turn

theorem fetch_withClock (s : State) (total : Nat) (moves : List Move) (turn : Nat) :
    fetch (s.withClock total moves turn) = fetch s := by
  have himm : ∀ row, readImmediate row (s.withClock total moves turn) = readImmediate row s := by
    intro row; cases row <;> rfl
  have hmem : (s.withClock total moves turn).mem = s.mem := rfl
  have hpc : (s.withClock total moves turn).pc = s.pc := rfl
  unfold fetch
  simp only [himm, hmem, hpc]

theorem execute_withClock (s : State) (total : Nat) (moves : List Move) (turn : Nat) :
    execute (s.withClock total moves turn) =
      mapNext (fun t => t.withClock total moves turn) (execute s) := by
  unfold execute
  rw [fetch_withClock]
  cases fetch s with
  | ok i => exact exec_withClock i s total moves turn
  | error err => rfl

end Sys2Proof.Machine
end

