-- ==== Sys2Proof/Tests/Slice0.lean ====
section
/-! SUPPORT. Tests of one step each, with results from spec/95_test_vectors.md or worked out from the rules, and for
every statement with hypotheses a concrete state that meets them. -/

namespace Sys2Proof.Tests

open Sys2Proof Sys2Proof.Machine Sys2Proof.Safety

/-- Holds when the outcome is a next state with the property. -/
def onNext (o : Host.Outcome State Fault Refusal) (p : State → Bool) : Bool :=
  match o with
  | .next t => p t
  | .fault _ => false
  | .refused _ => false

/-- The state a host leaves with `bytes` at `pc` and the CPU about to step. -/
def ready (pc : Word) (bytes : List Byte) : State :=
  { State.reset with
    pc := pc
    mem := Memory.place [] pc.toNat bytes
    runActive := true
    clockStarted := true
    totalCycles := 1
    schedule := [.cpu] }

/-- `ready` at the entry point. -/
def at100 (bytes : List Byte) : State := ready 0x0100#16 bytes

/-! ### Well-formedness: one ill-formed term for each check -/

theorem test_wellFormed_default : defaultConfig.wellFormed = true := by decide
theorem test_wellFormed_refuses_zero_frequency :
    ({ defaultConfig with freqHz := 0#32 } : Config).wellFormed = false := by decide
theorem test_wellFormed_refuses_seed_below_entry :
    ({ defaultConfig with haltSeedAddr := 0x00FF#16 } : Config).wellFormed = false := by decide
theorem test_wellFormed_refuses_seed_outside_store :
    ({ defaultConfig with haltSeedAddr := 0xFFFF#16 } : Config).wellFormed = false := by decide
theorem test_wellFormedAt_refuses_operand_outside_store :
    (Instr.ldHLd16 0xBEEF#16).wellFormedAt 0xFFFD#16 = false ∧
      (Instr.ldHLd16 0xBEEF#16).wellFormedAt 0xFFFC#16 = true := by decide

/-! ### Decoding: every row of spec/30_encoding.md R66, its word written out from the table -/

theorem test_decode_control :
    decode [0x00#8] = .ok .nop ∧ decode [0x10#8] = .ok .stop ∧ decode [0x76#8] = .ok .halt := by decide

theorem test_decode_load_pair :
    decode [0x01#8, 0xEF#8, 0xBE#8] = .ok (.ldBCd16 0xBEEF#16) ∧
    decode [0x11#8, 0xCD#8, 0xAB#8] = .ok (.ldDEd16 0xABCD#16) ∧
    decode [0x21#8, 0x00#8, 0x80#8] = .ok (.ldHLd16 0x8000#16) := by decide

theorem test_decode_load_reg :
    decode [0x06#8, 0xAB#8] = .ok (.ldBd8 0xAB#8) ∧ decode [0x0E#8, 0x01#8] = .ok (.ldCd8 0x01#8) ∧
    decode [0x16#8, 0x02#8] = .ok (.ldDd8 0x02#8) ∧ decode [0x1E#8, 0x03#8] = .ok (.ldEd8 0x03#8) ∧
    decode [0x26#8, 0x04#8] = .ok (.ldHd8 0x04#8) ∧ decode [0x2E#8, 0x05#8] = .ok (.ldLd8 0x05#8) ∧
    decode [0x3E#8, 0x06#8] = .ok (.ldAd8 0x06#8) := by decide

theorem test_decode_placeholder :
    decode [0x0A#8, 0x3C#8] = .ok (.ldAPh0A 0x3C#8) ∧ decode [0x1A#8, 0x99#8] = .ok (.ldAPh1A 0x99#8) := by
  decide

theorem test_decode_store :
    decode [0x02#8] = .ok .ldIndBCA ∧ decode [0x12#8] = .ok .ldIndDEA ∧
    decode [0x08#8, 0x00#8, 0xD0#8] = .ok (.ldIndA16SP 0xD000#16) := by decide

theorem test_decode_inc_dec_pair :
    decode [0x03#8] = .ok .incBC ∧ decode [0x13#8] = .ok .incDE ∧ decode [0x23#8] = .ok .incHL ∧
    decode [0x0B#8] = .ok .decBC ∧ decode [0x1B#8] = .ok .decDE ∧ decode [0x2B#8] = .ok .decHL := by decide

theorem test_decode_inc_reg :
    decode [0x04#8] = .ok .incB ∧ decode [0x0C#8] = .ok .incC ∧ decode [0x14#8] = .ok .incD ∧
    decode [0x1C#8] = .ok .incE ∧ decode [0x24#8] = .ok .incH ∧ decode [0x2C#8] = .ok .incL ∧
    decode [0x3C#8] = .ok .incA := by decide

theorem test_decode_dec_reg :
    decode [0x05#8] = .ok .decB ∧ decode [0x0D#8] = .ok .decC ∧ decode [0x15#8] = .ok .decD ∧
    decode [0x1D#8] = .ok .decE ∧ decode [0x25#8] = .ok .decH ∧ decode [0x2D#8] = .ok .decL ∧
    decode [0x3D#8] = .ok .decA := by decide

theorem test_decode_rotate_add :
    decode [0x07#8] = .ok .rlca ∧ decode [0x0F#8] = .ok .rrca ∧ decode [0x17#8] = .ok .rla ∧
    decode [0x1F#8] = .ok .rra ∧ decode [0x09#8] = .ok .addHLBC := by decide

theorem test_decode_rejects_by_name :
    decode [] = .error .noOpcode ∧ decode [0x18#8, 0xFE#8] = .error (.unimplementedOpcode 0x18#8) ∧
    decode [0xCB#8] = .error (.unimplementedOpcode 0xCB#8) ∧
    decode [0x31#8, 0x00#8, 0x00#8] = .error (.unimplementedOpcode 0x31#8) ∧
    decode [0x3E#8] = .error (.missingImmediate 0x3E#8) ∧
    decode [0x01#8, 0xEF#8] = .error (.missingImmediate 0x01#8) := by decide

theorem test_table_word_is_little_endian :
    decodeTableWord 24 0xBEEF01 = some (.ldBCd16 0xBEEF#16) ∧ decodeTableWord 8 0xFF09 = some .addHLBC ∧
    decodeTableWord 8 0x0A = some (.ldAPh0A 0x00#8) ∧ decodeTableWord 8 0x18 = none := by decide

/-! ### One step of the machine -/

/-- S5: bytes 01 EF BE at 0x0100. -/
theorem test_step_ld_bc : onNext (step (State.reset.withFetchWord 24 0xBEEF01)) (fun t =>
    t.b == 0xBE#8 && t.c == 0xEF#8 && t.pc == 0x0103#16 && t.cycleCount == 12) = true := by decide
/-- L8: the highest place of a three-byte load. -/
theorem test_step_ld_hl_top : onNext (step (ready 0xFFFC#16 [0x21#8, 0xEF#8, 0xBE#8])) (fun t =>
    t.pair .HL == 0xBEEF#16 && t.pc == 0xFFFF#16 && t.fault == none) = true := by decide
/-- L9: one byte higher the immediate cannot be read. -/
theorem test_step_ld_bc_outside : onNext (step (ready 0xFFFD#16 [0x01#8, 0x34#8])) (fun t =>
    t.fault == some (.memoryBoundsViolation 0xFFFE 2) && t.pc == 0xFFFD#16 && t.cycleCount == 0 &&
      !t.runActive) = true := by decide
/-- L7: a load of zero does not set Z. -/
theorem test_step_ld_a_zero : onNext (step { at100 [0x3E#8, 0x00#8] with a := 0x55#8, f := 0xF0#8 }) (fun t =>
    t.a == 0x00#8 && t.f == 0xF0#8 && t.pc == 0x0102#16 && t.cycleCount == 8) = true := by decide
/-- K3: STOP skips the byte after it. -/
theorem test_step_stop : onNext (step (at100 [0x10#8, 0x76#8])) (fun t =>
    t.stopped && !t.halted && t.pc == 0x0102#16 && t.cpuEnabled) = true := by decide
/-- K5: STOP at the last byte wraps pc and reads nothing outside the store. -/
theorem test_step_stop_wraps : onNext (step (ready 0xFFFE#16 [0x10#8])) (fun t =>
    t.stopped && t.pc == 0x0000#16 && t.fault == none) = true := by decide
/-- S10: HALT. -/
theorem test_step_halt : onNext (step (at100 [0x76#8])) (fun t =>
    t.halted && t.pc == 0x0101#16 && t.cycleCount == 4 && !t.cpuEnabled && !t.runActive) = true := by decide
/-- K8: no opcode at 0xFFFF. -/
theorem test_step_fetch_outside : onNext (step (ready 0xFFFF#16 [])) (fun t =>
    t.fault == some (.memoryBoundsViolation 0xFFFF 1) && t.pc == 0xFFFF#16) = true := by decide
/-- S11: an unimplemented opcode. -/
theorem test_step_unimplemented : onNext (step (at100 [0xD3#8])) (fun t =>
    t.fault == some (.unimplementedOpcode 0xD3#8 0x0100#16) && t.pc == 0x0100#16 && t.cycleCount == 0) = true := by
  decide
/-- H1: the placeholder load at 0x0A reads the next byte, not memory at BC. -/
theorem test_step_placeholder_0A : onNext (step { at100 [0x0A#8, 0x3C#8] with b := 0xC0#8 }) (fun t =>
    t.a == 0x3C#8 && t.pc == 0x0101#16 && t.cycleCount == 8) = true := by decide
/-- H2: the same with the length parameter at 2. -/
theorem test_step_placeholder_0A_long : onNext (step { at100 [0x0A#8, 0x3C#8] with
    config := { defaultConfig with ldaPhLen0A := .two } }) (fun t =>
    t.a == 0x3C#8 && t.pc == 0x0102#16) = true := by decide
/-- H3. -/
theorem test_step_placeholder_1A : onNext (step (at100 [0x1A#8, 0x99#8])) (fun t =>
    t.a == 0x99#8 && t.pc == 0x0102#16 && t.cycleCount == 8) = true := by decide
/-- T3: a store over the HALT seed; the cell equals no reset byte, so it is listed. -/
theorem test_step_store_bc : onNext (step { at100 [0x02#8] with a := 0x11#8, b := 0xFF#8, c := 0xFE#8 }) (fun t =>
    t.mem.read 0xFFFE == 0x11#8 && t.pc == 0x0101#16 && t.cycleCount == 8) = true := by decide
/-- T5. -/
theorem test_step_store_de_outside : onNext (step { at100 [0x12#8] with d := 0xFF#8, e := 0xFF#8 }) (fun t =>
    t.fault == some (.memoryBoundsViolation 0xFFFF 1) && t.pc == 0x0100#16) = true := by decide
/-- T13: LD (a16),SP over its own operand bytes. -/
theorem test_step_store_sp : onNext (step { at100 [0x08#8, 0x01#8, 0x01#8] with sp := 0xBBAA#16 }) (fun t =>
    t.mem.read 0x0101 == 0xAA#8 && t.mem.read 0x0102 == 0xBB#8 && t.pc == 0x0103#16 && t.cycleCount == 20) =
    true := by decide
/-- T10: at 0xFFFE the low byte is not written first. -/
theorem test_step_store_sp_outside : onNext (step { at100 [0x08#8, 0xFE#8, 0xFF#8] with sp := 0x1234#16 }) (fun t =>
    t.fault == some (.memoryBoundsViolation 0xFFFE 2) && t.mem.read 0xFFFE == 0x76#8) = true := by decide
/-- W1. -/
theorem test_step_inc_bc : onNext (step { at100 [0x03#8] with c := 0xFF#8, f := 0xF0#8 }) (fun t =>
    t.b == 0x01#8 && t.c == 0x00#8 && t.f == 0xF0#8 && t.cycleCount == 8) = true := by decide
/-- W2. -/
theorem test_step_inc_de_wraps : onNext (step { at100 [0x13#8] with d := 0xFF#8, e := 0xFF#8 }) (fun t =>
    t.pair .DE == 0x0000#16 && t.f == 0x00#8) = true := by decide
/-- W6. -/
theorem test_step_dec_hl : onNext (step { at100 [0x2B#8] with l := 0x01#8 }) (fun t =>
    t.pair .HL == 0x0000#16 && t.f == 0x00#8) = true := by decide
/-- W4. -/
theorem test_step_dec_bc_wraps : onNext (step (at100 [0x0B#8])) (fun t =>
    t.pair .BC == 0xFFFF#16 && t.f == 0x00#8) = true := by decide
/-- S6. -/
theorem test_step_inc_b : onNext (step { at100 [0x04#8] with b := 0xFF#8 }) (fun t =>
    t.b == 0x00#8 && t.f == 0xA0#8 && t.pc == 0x0101#16 && t.cycleCount == 4) = true := by decide
/-- I2: no carry between H and L. -/
theorem test_step_inc_h : onNext (step { at100 [0x24#8] with h := 0xFF#8, l := 0xFF#8 }) (fun t =>
    t.h == 0x00#8 && t.l == 0xFF#8 && t.f == 0xA0#8) = true := by decide
/-- I6. -/
theorem test_step_inc_e : onNext (step { at100 [0x1C#8] with e := 0x7F#8 }) (fun t =>
    t.e == 0x80#8 && t.f == 0x20#8) = true := by decide
/-- S7: the borrow test of the decrement, not the increment's. -/
theorem test_step_dec_b : onNext (step (at100 [0x05#8])) (fun t => t.b == 0xFF#8 && t.f == 0x60#8) = true := by
  decide
/-- The row old = 0x0F of the table after R169, F 0xF0 before. -/
theorem test_step_dec_a : onNext (step { at100 [0x3D#8] with a := 0x0F#8, f := 0xF0#8 }) (fun t =>
    t.a == 0x0E#8 && t.f == 0x50#8) = true := by decide
/-- S9, with Z, N, H set before. -/
theorem test_step_rlca : onNext (step { at100 [0x07#8] with a := 0xAA#8, f := 0xE0#8 }) (fun t =>
    t.a == 0x55#8 && t.f == 0x10#8) = true := by decide
theorem test_step_rrca : onNext (step { at100 [0x0F#8] with a := 0x01#8 }) (fun t =>
    t.a == 0x80#8 && t.f == 0x10#8) = true := by decide
theorem test_step_rla : onNext (step { at100 [0x17#8] with a := 0x80#8 }) (fun t =>
    t.a == 0x00#8 && t.f == 0x10#8) = true := by decide
theorem test_step_rra : onNext (step { at100 [0x1F#8] with a := 0xAA#8, f := 0x10#8 }) (fun t =>
    t.a == 0xD5#8 && t.f == 0x00#8) = true := by decide
/-- A3: the half-carry boundary of the spec's mask 0x07FF. -/
theorem test_step_add_half_carry : onNext (step { at100 [0x09#8] with h := 0x04#8, b := 0x04#8 }) (fun t =>
    t.pair .HL == 0x0800#16 && t.f == 0x20#8 && t.cycleCount == 8) = true := by decide
/-- A6: the result is zero and Z stays. -/
theorem test_step_add_carry : onNext (step { at100 [0x09#8] with h := 0x80#8, b := 0x80#8, f := 0x80#8 }) (fun t =>
    t.pair .HL == 0x0000#16 && t.f == 0x90#8) = true := by decide
/-- E3: the gate is closed at equality. -/
theorem test_step_gate_closed : onNext (step { at100 [0x00#8] with cycleCount := 20, totalCycles := 20 }) (fun t =>
    t.pc == 0x0100#16 && t.cycleCount == 20) = true := by decide
/-- E5. -/
theorem test_step_tick : onNext (step { at100 [] with schedule := [.clock] }) (fun t => t.totalCycles == 2) = true := by
  decide
/-- S1: a host write of AF masks the low nibble. -/
theorem test_step_host_af : onNext (step { State.reset with schedule := [.host (.writePair .AF 0x12FF#16)] })
    (fun t => t.a == 0x12#8 && t.f == 0xF0#8) = true := by decide

/-- S3: at frequency 4 (period 0.25 s), whatever it looks at, the counter is at most 5 one second after start. -/
theorem test_real_time_bound :
    (((RealClock.new 4#32).start 0).passes
      [0, 250000000, 500000000, 750000000, 1000000000, 1000000000]).totalCycles = 5 := by
  norm_num [RealClock.passes, RealClock.pass, RealClock.start, RealClock.new, periodNs]
/-- R217: whatever the free moves, here polls that starve the clock, a round has its tick and its poll. -/
theorem test_round_is_fair :
    roundOf [.cpu, .cpu] [] = (.cpu, [.cpu, .clock, .cpu]) ∧ roundOf [] [.host .run] = (.clock, [.host .run, .cpu]) := by
  decide
/-- R260 to R262 with another seed and a program in `INIT_MEM`. -/
theorem test_construct_image : onNext (construct { defaultConfig with haltSeedAddr := 0x8000#16 } [(0x0100, 0x3C#8)])
    (fun t => t.mem.read 0x0100 == 0x3C#8 && t.mem.read 0x8000 == 0x76#8 && t.mem.read 0xFFFE == 0x00#8 &&
      t.mem.wf && t.config.haltSeedAddr == 0x8000#16) = true := by decide

/-! ### Witnesses: a state and operands that meet the hypotheses of each statement -/

theorem witness_DecodedBytesAreEncoding :
    decode [0x08#8, 0x00#8, 0xD0#8, 0x76#8] = .ok (.ldIndA16SP 0xD000#16) := by decide
theorem witness_UnimplementedOpcodeExactly :
    (at100 [0xD3#8]).pc ≠ 0xFFFF#16 ∧ opcodeAt (at100 [0xD3#8]) = 0xD3#8 ∧ 0xD3#8 ∉ implemented := by decide
theorem witness_DispatchTotalOnBytes :
    0x3E#8 ∈ implemented ∧ 0x3F#8 ∉ implemented ∧ decode [0x3E#8, 0x06#8] = .ok (.ldAd8 0x06#8) := by decide
theorem witness_StepRunsDecodedInstruction :
    let s := ready 0xFFFC#16 [0x21#8, 0xEF#8, 0xBE#8]
    s.nextMove = .cpu ∧ s.cpuEnabled = true ∧ s.gateOpen = true ∧
      decode (bytesAt s.mem s.pc) = .ok (.ldHLd16 0xBEEF#16) ∧
      (Instr.ldHLd16 0xBEEF#16).wellFormedAt s.pc = true := by decide
theorem witness_FetchAgreesWithDecode :
    fetch (ready 0xFFFE#16 [0x10#8]) = .ok .stop ∧
      decode (bytesAt (ready 0xFFFE#16 [0x10#8]).mem 0xFFFE#16) = .ok .stop ∧
      Instr.stop.wellFormedAt 0xFFFE#16 = true := by decide
theorem witness_BoundsViolationTable_fetch : BoundsCause (ready 0xFFFF#16 []) 0xFFFF 1 := .opcodeFetch rfl
theorem witness_BoundsViolationTable_d8 : BoundsCause (ready 0xFFFE#16 [0x3E#8]) 0xFFFF 1 :=
  .readD8 rfl (by decide)
theorem witness_BoundsViolationTable_d16 : BoundsCause (ready 0xFFFD#16 [0x01#8]) 0xFFFE 2 :=
  .readD16 (.inl rfl) (by decide)
theorem witness_BoundsViolationTable_d16_last : BoundsCause (ready 0xFFFE#16 [0x11#8]) 0xFFFF 2 :=
  .readD16 (.inr rfl) (by decide)
theorem witness_BoundsViolationTable_storeBC :
    BoundsCause { ready 0xFFFE#16 [0x02#8] with b := 0xFF#8, c := 0xFF#8 } 0xFFFF 1 :=
  .storeBC (by decide) (by decide) (by decide)
theorem witness_BoundsViolationTable_storeDE :
    BoundsCause { at100 [0x12#8] with d := 0xFF#8, e := 0xFF#8 } 0xFFFF 1 :=
  .storeDE (by decide) (by decide) (by decide)
theorem witness_BoundsViolationTable_storeSP :
    BoundsCause (ready 0xFFFC#16 [0x08#8, 0xFE#8, 0xFF#8]) 0xFFFE 2 :=
  .storeSP (by decide) (by decide) (.inl (by decide))
theorem witness_ErrorsArePrecise :
    onNext (execute (at100 [0x00#8])) (fun t => decide (t.fault = none ∧ 0 < t.cycleCount)) = true ∧
      onNext (execute (at100 [0xD3#8])) (fun t => t.fault.isSome) = true := by decide
theorem witness_ExecuteReadsProgramStateOnly :
    AgreeOnProgram (at100 [0x04#8]) { at100 [0x04#8] with halted := true, totalCycles := 0 } :=
  ⟨fun r => by cases r <;> rfl, rfl, rfl, rfl, rfl, rfl⟩
theorem witness_CostTable : ∃ t, exec .addHLBC State.reset = .next t := ⟨_, rfl⟩
theorem witness_DeclaredLengthAndCost : ∃ t, exec (.ldAPh1A 0x99#8) State.reset = .next t := ⟨_, rfl⟩
theorem witness_StopCompletes :
    (ready 0xFFFE#16 [0x10#8]).pc ≠ 0xFFFF#16 ∧ opcodeAt (ready 0xFFFE#16 [0x10#8]) = 0x10#8 := by decide
theorem witness_LoadPairImmediate :
    (Instr.ldHLd16, Pair.HL, 0x21#8) ∈ [(Instr.ldBCd16, Pair.BC, 0x01#8), (Instr.ldDEd16, Pair.DE, 0x11#8),
      (Instr.ldHLd16, Pair.HL, 0x21#8)] ∧
    opcodeAt (ready 0xFFFC#16 [0x21#8]) = 0x21#8 ∧ (0xFFFC#16).toNat < 0xFFFD ∧
    opcodeAt (ready 0xFFFD#16 [0x21#8]) = 0x21#8 ∧ opcodeAt (ready 0xFFFE#16 [0x21#8]) = 0x21#8 := by
  refine ⟨by simp, by decide, by decide, by decide, by decide⟩
theorem witness_LoadRegImmediate :
    (Instr.ldLd8, Reg.L, 0x2E#8) ∈ [(Instr.ldBd8, Reg.B, 0x06#8), (Instr.ldCd8, Reg.C, 0x0E#8),
      (Instr.ldDd8, Reg.D, 0x16#8), (Instr.ldEd8, Reg.E, 0x1E#8), (Instr.ldHd8, Reg.H, 0x26#8),
      (Instr.ldLd8, Reg.L, 0x2E#8), (Instr.ldAd8, Reg.A, 0x3E#8)] ∧
    opcodeAt (ready 0xFFFD#16 [0x2E#8, 0x77#8]) = 0x2E#8 ∧ (0xFFFD#16).toNat < 0xFFFE ∧
    opcodeAt (ready 0xFFFE#16 [0x2E#8]) = 0x2E#8 := by
  refine ⟨by simp, by decide, by decide, by decide⟩
theorem witness_PlaceholderLoads :
    (Instr.ldAPh0A, PhLen.one, 0x0A#8) ∈ [(Instr.ldAPh0A, State.reset.config.ldaPhLen0A, 0x0A#8),
      (Instr.ldAPh1A, State.reset.config.ldaPhLen1A, 0x1A#8)] ∧
    (Instr.ldAPh1A, PhLen.two, 0x1A#8) ∈ [(Instr.ldAPh0A, State.reset.config.ldaPhLen0A, 0x0A#8),
      (Instr.ldAPh1A, State.reset.config.ldaPhLen1A, 0x1A#8)] ∧
    opcodeAt (ready 0xFFFD#16 [0x0A#8]) = 0x0A#8 ∧ opcodeAt (ready 0xFFFE#16 [0x1A#8]) = 0x1A#8 := by
  refine ⟨by simp [State.reset, defaultConfig], by simp [State.reset, defaultConfig], by decide, by decide⟩
theorem witness_StoreAccumulatorIndirect :
    (Instr.ldIndDEA, Pair.DE) ∈ [(Instr.ldIndBCA, Pair.BC), (Instr.ldIndDEA, Pair.DE)] ∧
    0xFFFE = ({ State.reset with d := 0xFF#8, e := 0xFE#8 }.indirect .DE).toNat ∧
    0xFFFF = ({ State.reset with b := 0xFF#8, c := 0xFF#8 }.indirect .BC).toNat := by decide
theorem witness_StoreStackPointer : (0xFFFD#16).toNat < 0xFFFE ∧ 0xFFFE ≤ (0xFFFE#16).toNat := by decide
/-- T6. -/
theorem witness_FetchSeesEarlierStore :
    let s := { at100 [0x02#8] with a := 0x76#8, b := 0x01#8, c := 0x01#8 }
    s.pair .BC = s.pc + 1#16 ∧ s.pair .BC ≠ 0xFFFF#16 ∧ decode [s.a] = .ok .halt := by decide
theorem witness_IncrementPair : (Instr.incDE, Pair.DE) ∈
    [(Instr.incBC, Pair.BC), (Instr.incDE, Pair.DE), (Instr.incHL, Pair.HL)] := by decide
theorem witness_DecrementPair : (Instr.decHL, Pair.HL) ∈
    [(Instr.decBC, Pair.BC), (Instr.decDE, Pair.DE), (Instr.decHL, Pair.HL)] := by decide
theorem witness_IncrementRegister : (Instr.incE, Reg.E) ∈
    [(Instr.incB, Reg.B), (Instr.incC, Reg.C), (Instr.incD, Reg.D), (Instr.incE, Reg.E), (Instr.incH, Reg.H),
      (Instr.incL, Reg.L), (Instr.incA, Reg.A)] := by decide
theorem witness_DecrementRegister : (Instr.decC, Reg.C) ∈
    [(Instr.decB, Reg.B), (Instr.decC, Reg.C), (Instr.decD, Reg.D), (Instr.decE, Reg.E), (Instr.decH, Reg.H),
      (Instr.decL, Reg.L), (Instr.decA, Reg.A)] := by decide
theorem witness_RotatesUndoEachOther :
    (Instr.rra, Instr.rla) ∈ [(Instr.rla, Instr.rra), (Instr.rra, Instr.rla), (Instr.rlca, Instr.rrca),
      (Instr.rrca, Instr.rlca)] ∧ State.reset.f &&& 0x0F#8 = 0x00#8 := by decide
theorem witness_FlagsChangedOnlyByListed :
    Instr.incBC.opcode ∉ flagOpcodes ∧ ∃ t, exec .incBC State.reset = .next t := ⟨by decide, _, rfl⟩
theorem witness_FlagByteRoundTrip : decodeFlags 0xA5#8 = (true, false, true, false) := by decide
theorem witness_PairsAreViews : Pair.HL ≠ .BC := by decide
theorem witness_PairWriteReadsBack :
    Pair.DE ≠ .AF ∧ Reg.A ≠ pairHigh .DE ∧ Reg.A ≠ pairLow .DE := by decide
theorem witness_FlagLowNibbleZero :
    (at100 [0x04#8]).f &&& 0x0F#8 = 0x00#8 ∧ (∃ t, step (at100 [0x04#8]) = .next t) ∧
      (∃ t, exec .nop State.reset = .next t) ∧ Instr.nop.opcode ∉ flagOpcodes :=
  ⟨by decide, ⟨_, rfl⟩, ⟨_, rfl⟩, by decide⟩
theorem witness_StoreWritesWholeOrNothing :
    ([0x34#8] : List Byte) ∈ [[(0x1234#16).extractLsb' 0 8], [(0x1234#16).extractLsb' 0 8, (0x1234#16).extractLsb' 8 8]] ∧
    ([0x34#8, 0x12#8] : List Byte) ∈
      [[(0x1234#16).extractLsb' 0 8], [(0x1234#16).extractLsb' 0 8, (0x1234#16).extractLsb' 8 8]] ∧
    (0xFFFE#16).toNat + 1 ≤ 65535 ∧ (0xFFFE#16).toNat + 2 > 65535 ∧ (0xFFFD#16).toNat + 2 ≤ 65535 ∧
    (0xFFFF#16).toNat + 1 > 65535 := by decide
theorem witness_LoadsAreLittleEndian :
    0xFFFE#16 ≠ 0xFFFF#16 ∧ 0xFFFE ≤ (0xFFFE#16).toNat ∧ (0xFFFD#16).toNat < 0xFFFE := by decide
theorem witness_PacingGate :
    (at100 []).cpuEnabled = true ∧ (at100 []).cycleCount < (at100 []).totalCycles ∧
      (at100 []).gateOpen = true ∧
      { at100 [] with totalCycles := 0 }.totalCycles ≤ { at100 [] with totalCycles := 0 }.cycleCount := by decide
theorem witness_CpuStepsExactlyInActiveRun :
    State.reset.cpuEnabled = false ∧ (at100 [0x76#8]).cpuEnabled = true ∧
      onNext (poll (at100 [0x76#8])) (fun t => t.ended) = true ∧
      onNext (poll (at100 [0x00#8])) (fun t => !t.ended) = true := by decide
theorem witness_TickAddsOne : (at100 []).clockStarted = true ∧ State.reset.clockStarted = false := by decide
theorem witness_ClockReadsAreMonotone : ∃ t, step (at100 [0x00#8]) = .next t := ⟨_, rfl⟩
theorem witness_AgentsWriteOnlyTheirOwn :
    (∃ t, move .clock (at100 []) = .next t) ∧ (∃ t, move .cpu (at100 [0x04#8]) = .next t) ∧
      (∃ t, move (.host .run) State.reset = .next t) ∧ (at100 []).runActive = true ∧
      { State.reset with halted := true }.ended = true :=
  ⟨⟨_, rfl⟩, ⟨_, rfl⟩, ⟨_, rfl⟩, rfl, rfl⟩
theorem witness_TickCommutesWithCpuStep : (at100 [0x04#8]).gateOpen = true := by decide
theorem witness_HaltedAndStoppedSetOnlyByTheirOpcodes :
    onNext (step (at100 [0x76#8])) (fun t => t.halted) = true ∧
      onNext (step (at100 [0x10#8])) (fun t => t.stopped) = true := by decide
theorem witness_PcOnlyMovesForward : ∃ t, move .cpu (ready 0xFFFE#16 [0x10#8]) = .next t := ⟨_, rfl⟩
theorem witness_HostWritesBeforeRun :
    State.reset.runActive = false ∧ State.reset.ended = false ∧ 65533 + [0x01#8, 0x02#8].length ≤ 65535 ∧
      65534 + [0x01#8, 0x02#8].length > 65535 ∧ 1 < [0x01#8, 0x02#8].length := by decide
theorem witness_HostHasNoMoveDuringRun :
    { at100 [] with schedule := [.host .run] }.runActive = true ∧
      { at100 [] with schedule := [.host .run] }.nextMove = .host .run := by decide
theorem witness_RunStartsClockAndCpu :
    State.reset.runActive = false ∧ State.reset.ended = false ∧
      { State.reset with halted := true }.ended = true := by decide
theorem witness_ResetState : 0xFFFE < 65535 := by decide
theorem witness_ZeroFrequencyIsInvalid :
    ({ defaultConfig with freqHz := 0#32 } : Config).freqHz = 0#32 ∧ defaultConfig.freqHz ≠ 0#32 := by decide
theorem witness_ConstructionGivesBootState :
    ({ defaultConfig with haltSeedAddr := 0x0100#16 } : Config).wellFormed = true ∧ 0xFFFE < 65535 ∧
      0xFFFE ≠ ({ defaultConfig with haltSeedAddr := 0x0100#16 } : Config).haltSeedAddr.toNat := by decide
theorem witness_StepKeepsInvariant :
    Inv (at100 [0x08#8, 0x00#8, 0xD0#8]) ∧ ∃ t, step (at100 [0x08#8, 0x00#8, 0xD0#8]) = .next t :=
  ⟨⟨by decide, by decide, by decide, by decide, by decide, by decide, by decide⟩, _, rfl⟩
theorem witness_EndIsForever :
    let s := { at100 [] with halted := true, runActive := false, schedule := [.cpu, .clock] }
    s.ended = true ∧ s.runActive = false ∧ ∃ t, Host.Core.run core 2 s = .next t := ⟨rfl, rfl, _, rfl⟩
theorem witness_FinalStateIgnoresSchedule :
    (∀ m ∈ [Move.cpu], isAgentMove m) ∧ (∀ m ∈ [Move.clock, Move.cpu], isAgentMove m) ∧
      ∃ t₁ t₂, Host.Core.run core 1 ({ at100 [0x76#8] with schedule := [.cpu] } : State) = .next t₁ ∧
        Host.Core.run core 2 ({ at100 [0x76#8] with schedule := [.clock, .cpu] } : State) = .next t₂ ∧
        State.ended t₁ = true ∧ State.ended t₂ = true :=
  ⟨by simp [isAgentMove], by simp [isAgentMove], _, _, rfl, rfl, rfl, rfl⟩
theorem witness_EnoughTicksLetTheCpuStep :
    let s := { at100 [0x04#8] with cycleCount := 2, schedule := [.clock, .clock, .cpu] }
    s.cpuEnabled = true ∧ s.clockStarted = true ∧ s.cycleCount < s.totalCycles + 2 ∧
      s.schedule = List.replicate 2 .clock ++ [.cpu] := by decide
theorem witness_CountersNeverDecrease : ∃ t, Host.Core.run core 1 (at100 [0x00#8]) = .next t := ⟨_, rfl⟩
theorem witness_PacingLoopTick :
    (RealClock.new 4#32).started = false ∧ ((RealClock.new 4#32).start 0).started = true ∧
      ((RealClock.new 4#32).start 0).deadline ≤ 0 ∧ (-1 : Rat) < ((RealClock.new 4#32).start 0).deadline := by
  decide
/-- S3: at frequency 4, one second after start. -/
theorem witness_RealTimeUpperBound :
    (4#32 : BitVec 32) ≠ 0#32 ∧ (0 : Rat) ≤ 1000000000 ∧ ∀ now ∈ [(0 : Rat), 1000000000], now ≤ 1000000000 := by
  refine ⟨by decide, by norm_num, ?_⟩
  intro now hnow
  simp only [List.mem_cons, List.not_mem_nil, or_false] at hnow
  rcases hnow with rfl | rfl <;> norm_num

end Sys2Proof.Tests
end

/-! PROOFS. The flag byte and the register pairs (spec/10_state.md R14, R16). -/

namespace Sys2Proof.Machine

/-! ### The flag byte (R14) -/

/-- `EncodeFlags` is the flag update of a byte that is zero, which carries the bit lemmas of `writeFlags` over. -/
theorem writeFlags_zero (z n h c : Bool) : writeFlags 0x00#8 z n h c = encodeFlags z n h c := by
  simp [writeFlags]

theorem decodeFlags_writeFlags (f : Byte) (z n h c : Bool) :
    decodeFlags (writeFlags f z n h c) = (z, n, h, c) := by
  simp [decodeFlags]

@[simp] theorem decodeFlags_encodeFlags (z n h c : Bool) : decodeFlags (encodeFlags z n h c) = (z, n, h, c) := by
  rw [← writeFlags_zero, decodeFlags_writeFlags]

theorem encodeFlags_toNat (z n h c : Bool) :
    (encodeFlags z n h c).toNat = z.toNat * 0x80 + n.toNat * 0x40 + h.toNat * 0x20 + c.toNat * 0x10 := by
  cases z <;> cases n <;> cases h <;> cases c <;> rfl

/-- Re-encoding keeps the flag bits and zeroes the low nibble. -/
theorem encodeFlags_flags (b : Byte) :
    encodeFlags (flagZ b) (flagN b) (flagH b) (flagC b) = b &&& 0xF0#8 := by
  refine BitVec.eq_of_getLsbD_eq fun i hi => ?_
  simp only [encodeFlags, BitVec.getLsbD_or, BitVec.getLsbD_and, apply_ite (BitVec.getLsbD · i)]
  interval_cases i <;> simp [flagZ, flagN, flagH, flagC]

theorem encodeFlags_of_decodeFlags {b : Byte} {z n h c : Bool} (hdec : decodeFlags b = (z, n, h, c)) :
    encodeFlags z n h c = b &&& 0xF0#8 := by
  cases hdec
  exact encodeFlags_flags b

/-- Settles O31: decoding reads bits 7 to 4 by definition, and the two round trips are the lemmas above. -/
theorem flagByteRoundTrip : Obligations.FlagByteRoundTrip :=
  ⟨fun _ => rfl, fun z n h c => ⟨encodeFlags_toNat z n h c, decodeFlags_encodeFlags z n h c⟩,
    fun _ _ _ _ _ hdec => encodeFlags_of_decodeFlags hdec⟩

/-! ### Register pairs (R16) -/

theorem pairHigh_injective : Function.Injective pairHigh := by
  intro p q hpq
  cases p <;> cases q <;> cases hpq <;> rfl

theorem pairHigh_ne_pairLow (p q : Pair) : pairHigh p ≠ pairLow q := by
  cases p <;> cases q <;> decide

theorem pairHigh_ne_F (p : Pair) : pairHigh p ≠ .F := pairHigh_ne_pairLow p .AF

/-- A pair is the view of its two cells, high register first. -/
theorem State.pair_toNat (s : State) (p : Pair) :
    (s.pair p).toNat = (s.reg (pairHigh p)).toNat * 256 + (s.reg (pairLow p)).toNat :=
  joinBytes_toNat _ _

theorem State.pair_setReg_of_ne (s : State) {p : Pair} {r : Reg} (v : Byte) (hHigh : pairHigh p ≠ r)
    (hLow : pairLow p ≠ r) : (s.setReg r v).pair p = s.pair p := by
  simp only [State.pair, State.reg_setReg_of_ne s v hHigh, State.reg_setReg_of_ne s v hLow]

/-- Writing the high register of a pair replaces the high byte of the view and keeps the low one. -/
theorem State.pair_setReg_pairHigh_toNat (s : State) (p : Pair) (v : Byte) :
    ((s.setReg (pairHigh p) v).pair p).toNat = v.toNat * 256 + (s.pair p).toNat % 256 := by
  have hHigh : (s.setReg (pairHigh p) v).reg (pairHigh p) = v := by simp [pairHigh_ne_F]
  have hLow : (s.setReg (pairHigh p) v).reg (pairLow p) = s.reg (pairLow p) :=
    State.reg_setReg_of_ne s v (pairHigh_ne_pairLow p p).symm
  have := (s.reg (pairLow p)).isLt
  rw [State.pair_toNat, State.pair_toNat, hHigh, hLow]
  omega

/-- Writing the high register of a pair leaves every other pair as it is. -/
theorem State.pair_setReg_pairHigh_of_ne (s : State) {p q : Pair} (v : Byte) (hne : q ≠ p) :
    (s.setReg (pairHigh p) v).pair q = s.pair q :=
  State.pair_setReg_of_ne s v (pairHigh_injective.ne hne) (pairHigh_ne_pairLow p q).symm

/-- Settles O32: each clause is a pair law at one pair, B being the high register of BC. -/
theorem pairsAreViews : Obligations.PairsAreViews := fun s v =>
  ⟨s.pair_toNat .AF, s.pair_toNat .BC, s.pair_toNat .DE, s.pair_toNat .HL,
    s.pair_setReg_pairHigh_toNat .BC v, rfl, fun _ hne => s.pair_setReg_pairHigh_of_ne (p := .BC) v hne⟩

end Sys2Proof.Machine

/-! PROOFS. The store of 65,535 bytes and its checked accesses (spec/20_memory.md R40, R43, R45). -/

namespace Sys2Proof.Machine

/-! ### The checked write (R43, R45) -/

theorem Memory.store_of_inside (m : Memory) {addr : Nat} {bytes : List Byte} (hin : addr + bytes.length ≤ 65535) :
    m.store addr bytes = .ok (m.writeBytes addr bytes) := by
  rcases m.store_cases addr bytes with ⟨-, hok⟩ | ⟨hout, -⟩
  · exact hok
  · omega

theorem Memory.store_of_outside (m : Memory) {addr : Nat} {bytes : List Byte} (hout : 65535 < addr + bytes.length) :
    m.store addr bytes = .error (.memoryBoundsViolation addr bytes.length) := by
  rcases m.store_cases addr bytes with ⟨hin, -⟩ | ⟨-, herr⟩
  · omega
  · exact herr

/-! ### The first bytes of a write (R45) -/

@[simp] theorem Memory.read_writeBytes_first (m : Memory) (addr : Nat) (low : Byte) (rest : List Byte) :
    (m.writeBytes addr (low :: rest)).read addr = low :=
  m.read_writeBytes_inside addr (low :: rest) 0 (by simp)

@[simp] theorem Memory.read_writeBytes_second (m : Memory) (addr : Nat) (low high : Byte) (rest : List Byte) :
    (m.writeBytes addr (low :: high :: rest)).read (addr + 1) = high :=
  m.read_writeBytes_inside addr (low :: high :: rest) 1 (by simp)

/-- Settles O35: the bounds test decides between the whole `writeBytes` and the error; inside the store, the
bytes written are the first and the second of the run, and every byte beside the run is kept. -/
theorem storeWritesWholeOrNothing : Obligations.StoreWritesWholeOrNothing := by
  intro m addr v bytes hbytes
  refine ⟨m.store_of_outside, fun hin => ⟨_, m.store_of_inside hin, ?_, ?_, m.read_writeBytes_outside _ _⟩⟩
  · rcases List.mem_pair.mp hbytes with rfl | rfl <;> exact m.read_writeBytes_first _ _ _
  · intro hlen
    rcases List.mem_pair.mp hbytes with rfl | rfl
    · simp at hlen
    · exact m.read_writeBytes_second _ _ _ _

/-! ### The addresses of the store (R40) -/

theorem Memory.load8_ok_iff (m : Memory) (addr : Word) :
    (∃ v, m.load8 addr = .ok v) ↔ addr.toNat ≤ 0xFFFE := by
  rcases m.load8_cases addr with ⟨hin, hok⟩ | ⟨rfl, herr⟩
  · exact iff_of_true ⟨_, hok⟩ (by omega)
  · exact iff_of_false (by simp [herr]) (by decide)

/-- Settles O37: the size is the model's constant, and `Memory.load8_ok_iff` gives the addresses that read. -/
theorem storeHasExactly65535Bytes : Obligations.StoreHasExactly65535Bytes :=
  ⟨rfl, Memory.load8_ok_iff⟩

end Sys2Proof.Machine

/-! PROOFS. Frames and retirement, and the control instruction NOP (spec/40_engine.md R103; spec/41_control.md
R120). -/

namespace Sys2Proof.Safety

open Sys2Proof.Machine

/-! ### What retiring keeps and moves (R103) -/

theorem KeepsSystem.refl (s : State) : KeepsSystem s s := by
  constructor <;> rfl

theorem Frame.refl (written : List Reg) (s : State) : Frame written s s :=
  ⟨fun _ _ => rfl, fun _ => rfl, .refl s⟩

theorem KeepsSystem.retired {s u : State} (h : KeepsSystem s u) (len cost : Nat) :
    KeepsSystem s (u.retired len cost) :=
  { h with }

/-- Retiring an effect keeps the effect's frame: it moves only pc and cycle_count. -/
theorem Frame.retired {written : List Reg} {s u : State} (h : Frame written s u) (len cost : Nat) :
    Frame written s (u.retired len cost) where
  regs r hr := (u.reg_retired len cost r).trans (h.regs r hr)
  memory := h.memory
  system := h.system.retired len cost

/-- An effect that has not moved pc and cycle_count retires by the length and the cost given. -/
theorem Retires.retired {s u : State} (hpc : u.pc = s.pc) (hcycles : u.cycleCount = s.cycleCount)
    (len cost : Nat) : Retires len cost s (u.retired len cost) where
  pc := by rw [State.retired_pc, hpc]
  cycleCount := by rw [State.retired_cycleCount, hcycles]

end Sys2Proof.Safety

namespace Sys2Proof.Machine

open Sys2Proof.Safety

/-! ### NOP (R120) -/

theorem exec_nop (s : State) : exec .nop s = .next (s.retired 1 4) := rfl

/-- Settles O13: NOP retires the state itself, whose frame is trivial. -/
theorem nopCompletes : Obligations.NopCompletes := fun s =>
  ⟨rfl, _, exec_nop s, (Frame.refl [] s).retired 1 4, .retired rfl rfl 1 4⟩

end Sys2Proof.Machine

/-! PROOFS. Frames and flags of a register update, and the 8-bit increment and decrement (spec/10_state.md R13;
spec/44_incdec.md R168, R169). -/

namespace Sys2Proof.Safety

open Sys2Proof.Machine

/-! ### What a register write and a flag update keep (R13) -/

theorem KeepsSystem.setReg {s u : State} (h : KeepsSystem s u) (r : Reg) (v : Byte) :
    KeepsSystem s (u.setReg r v) := by
  constructor <;> simp [h.sp, h.halted, h.stopped, h.fault, h.runActive, h.totalCycles, h.clockStarted, h.config,
    h.schedule, h.turn]

theorem KeepsSystem.setFlags {s u : State} (hkeep : KeepsSystem s u) (z n h c : Bool) :
    KeepsSystem s (u.setFlags z n h c) :=
  { hkeep with }

/-- Writing a register of the list keeps the frame. -/
theorem Frame.setReg {written : List Reg} {s u : State} (h : Frame written s u) {r : Reg} (hr : r ∈ written)
    (v : Byte) : Frame written s (u.setReg r v) where
  regs q hq := (u.reg_setReg_of_ne v (ne_of_mem_of_not_mem hr hq).symm).trans (h.regs q hq)
  memory addr := by rw [State.setReg_mem, h.memory addr]
  system := h.system.setReg r v

/-- A flag update keeps the frame when F is in the list. -/
theorem Frame.setFlags {written : List Reg} {s u : State} (hframe : Frame written s u) (hF : .F ∈ written)
    (z n h c : Bool) : Frame written s (u.setFlags z n h c) where
  regs q hq := (u.reg_setFlags_of_ne z n h c (ne_of_mem_of_not_mem hF hq).symm).trans (hframe.regs q hq)
  memory := hframe.memory
  system := hframe.system.setFlags z n h c

/-- A flag update sets the four flags and keeps the low nibble that its state had. -/
theorem FlagsAre.setFlags {s u : State} (hnibble : u.f &&& 0x0F#8 = s.f &&& 0x0F#8) (z n h c : Bool) :
    FlagsAre z n h c s (u.setFlags z n h c) := by
  constructor <;> simp [hnibble]

theorem FlagsAre.retired {z n h c : Bool} {s u : State} (hflags : FlagsAre z n h c s u) (len cost : Nat) :
    FlagsAre z n h c s (u.retired len cost) :=
  { hflags with }

end Sys2Proof.Safety

namespace Sys2Proof.Machine

open Sys2Proof.Safety

/-! ### A general register written together with the flags -/

/-- An instruction whose effect is one register write and one flag update: what it gives, and its frame. -/
theorem retired_setReg_setFlags (s : State) {r : Reg} (hr : r ≠ .F) (v : Byte) (z n h c : Bool) (len cost : Nat) :
    let t := ((s.setReg r v).setFlags z n h c).retired len cost
    t.reg r = v ∧ FlagsAre z n h c s t ∧ Frame [r, .F] s t ∧ Retires len cost s t := by
  have hflags : FlagsAre z n h c s ((s.setReg r v).setFlags z n h c) :=
    .setFlags (by rw [s.setReg_f_of_ne v hr]) z n h c
  have hframe : Frame [r, .F] s ((s.setReg r v).setFlags z n h c) :=
    ((Frame.refl [r, .F] s).setReg (by simp) v).setFlags (by simp) z n h c
  exact ⟨by simp [hr], hflags.retired len cost, hframe.retired len cost, .retired (by simp) (by simp) len cost⟩

/-! ### The tests of R168 and R169 as arithmetic on the old byte -/

theorem lowNibble_toNat (v : Byte) : (lowNibble v).toNat = v.toNat % 16 :=
  Nat.and_two_pow_sub_one_eq_mod v.toNat 4

theorem lowNibble_beq (v k : Byte) : (lowNibble v == k) = decide (v.toNat % 16 = k.toNat) := by
  rw [← lowNibble_toNat, beq_eq_decide, decide_eq_decide]
  exact BitVec.toNat_inj.symm

theorem add_one_beq_zero (v : Byte) : (v + 1#8 == 0x00#8) = decide (v = 0xFF#8) := by
  rw [beq_eq_decide, decide_eq_decide]
  exact eq_neg_iff_add_eq_zero.symm

theorem sub_one_beq_zero (v : Byte) : (v - 1#8 == 0x00#8) = decide (v = 0x01#8) := by
  rw [beq_eq_decide, decide_eq_decide]
  exact sub_eq_zero

theorem toNat_sub_one (v : Byte) : (v - 1#8).toNat = (v.toNat + 255) % 256 := by
  rw [BitVec.toNat_sub, Nat.add_comm]
  rfl

/-! ### INC r8 (R168) -/

/-- `Inc8` with its zero and half-carry tests as arithmetic. -/
theorem State.inc8_eq (s : State) (r : Reg) :
    s.inc8 r = (s.setReg r (s.reg r + 1#8)).setFlags (decide (s.reg r = 0xFF#8)) false
      (decide ((s.reg r).toNat % 16 = 15)) (flagC s.f) := by
  rw [← add_one_beq_zero, ← show (0x0F#8).toNat = 15 from rfl, ← lowNibble_beq]
  rfl

/-- The instructions of R170 to R176 with their registers. -/
def incRows : List (Instr × Reg) :=
  [(.incB, .B), (.incC, .C), (.incD, .D), (.incE, .E), (.incH, .H), (.incL, .L), (.incA, .A)]

theorem exec_of_mem_incRows {row : Instr × Reg} (hrow : row ∈ incRows) (s : State) :
    row.2 ≠ .F ∧ exec row.1 s = .next ((s.inc8 row.2).retired 1 4) := by
  fin_cases hrow <;> exact ⟨by decide, rfl⟩

/-- Settles O24: each row retires `Inc8`, which is one register write and one flag update. -/
theorem incrementRegister : Obligations.IncrementRegister := by
  intro i r hrow s
  obtain ⟨hr, hexec⟩ := exec_of_mem_incRows hrow s
  rw [s.inc8_eq] at hexec
  obtain ⟨hreg, hspec⟩ := retired_setReg_setFlags s hr _ _ _ _ _ 1 4
  exact ⟨_, hexec, by rw [hreg]; exact BitVec.toNat_add _ _, hspec⟩

/-! ### DEC r8 (R169) -/

/-- `Dec8` with its zero and borrow tests as arithmetic. -/
theorem State.dec8_eq (s : State) (r : Reg) :
    s.dec8 r = (s.setReg r (s.reg r - 1#8)).setFlags (decide (s.reg r = 0x01#8)) true
      (decide ((s.reg r).toNat % 16 = 0)) (flagC s.f) := by
  rw [← sub_one_beq_zero, ← show (0x00#8).toNat = 0 from rfl, ← lowNibble_beq]
  rfl

/-- The instructions of R177 to R183 with their registers. -/
def decRows : List (Instr × Reg) :=
  [(.decB, .B), (.decC, .C), (.decD, .D), (.decE, .E), (.decH, .H), (.decL, .L), (.decA, .A)]

theorem exec_of_mem_decRows {row : Instr × Reg} (hrow : row ∈ decRows) (s : State) :
    row.2 ≠ .F ∧ exec row.1 s = .next ((s.dec8 row.2).retired 1 4) := by
  fin_cases hrow <;> exact ⟨by decide, rfl⟩

/-- Settles O25: each row retires `Dec8`, which is one register write and one flag update. -/
theorem decrementRegister : Obligations.DecrementRegister := by
  intro i r hrow s
  obtain ⟨hr, hexec⟩ := exec_of_mem_decRows hrow s
  rw [s.dec8_eq] at hexec
  obtain ⟨hreg, hspec⟩ := retired_setReg_setFlags s hr _ _ _ _ _ 1 4
  exact ⟨_, hexec, by rw [hreg]; exact toNat_sub_one _, hspec⟩

end Sys2Proof.Machine

/-! PROOFS. Reads of the clock's counter, and who writes it (spec/10_state.md R29; spec/47_clock.md R213, R216). -/

namespace Sys2Proof.Machine

/-! ### The host and the CPU keep the counter (R29) -/

@[simp] theorem State.hostWrite_totalCycles (s : State) (a : HostAction) :
    (s.hostWrite a).totalCycles = s.totalCycles := by
  cases a with
  | writeReg r v => exact s.setReg_totalCycles r v
  | writePair p v => exact s.setPair_totalCycles p v
  | setPc v => rfl
  | setSp v => rfl
  | writeMem addr bytes => rw [State.hostWrite]; split <;> rfl
  | run => rfl

@[simp] theorem State.hostMove_totalCycles (s : State) (a : HostAction) :
    (s.hostMove a).totalCycles = s.totalCycles := by
  unfold State.hostMove
  split_ifs
  · rfl
  · rfl
  · rfl
  · exact s.hostWrite_totalCycles a

theorem execute_totalCycles {s t : State} (h : execute s = .next t) : t.totalCycles = s.totalCycles := by
  rcases execute_retires_or_raises s with ⟨i, u, -, hretire, heffect⟩ | ⟨err, hraise⟩
  · cases hretire.symm.trans h
    exact heffect.totalCycles
  · cases hraise.symm.trans h
    rfl

theorem poll_totalCycles {s t : State} (h : poll s = .next t) : t.totalCycles = s.totalCycles := by
  rcases poll_cases s with ⟨hstutter, -⟩ | ⟨u, -, -, hexecute, hpoll⟩
  · cases hstutter.symm.trans h
    rfl
  · cases hpoll.symm.trans h
    rw [State.leaveRunIfHalted_totalCycles, execute_totalCycles hexecute]

/-! ### A tick raises it (R213), so no step lowers it (R216) -/

theorem State.totalCycles_le_tick (s : State) : s.totalCycles ≤ s.tick.totalCycles := by
  rw [State.tick_totalCycles]
  split
  · exact Nat.le_succ _
  · exact le_rfl

theorem move_totalCycles_le {m : Move} {s t : State} (h : move m s = .next t) : s.totalCycles ≤ t.totalCycles := by
  cases m with
  | clock => cases h; exact s.totalCycles_le_tick
  | cpu => exact (poll_totalCycles h).ge
  | host a => cases h; exact (s.hostMove_totalCycles a).ge

theorem step_totalCycles_le {s t : State} (h : step s = .next t) : s.totalCycles ≤ t.totalCycles := by
  obtain ⟨u, hmove, hstep⟩ := step_cases s
  cases hstep.symm.trans h
  rw [State.advanceSchedule_totalCycles]
  exact move_totalCycles_le hmove

/-- Settles O41: a read is the counter by definition, and a step is the move of one agent, of which the clock's
raises the counter and the others keep it. -/
theorem clockReadsAreMonotone : Obligations.ClockReadsAreMonotone := fun _ _ =>
  ⟨rfl, step_totalCycles_le⟩

end Sys2Proof.Machine

/-! PROOFS. The entry point after reset (spec/70_reset_and_hazards.md R263). -/

namespace Sys2Proof.Machine

@[simp] theorem State.reset_reg (r : Reg) : State.reset.reg r = 0x00#8 := by
  cases r <;> rfl

/-- F at reset is the encoding of four clear flags, so decoding it gives them back. -/
@[simp] theorem State.decodeFlags_reset_f : decodeFlags State.reset.f = (false, false, false, false) := by
  have hf : State.reset.f = encodeFlags false false false false := rfl
  rw [hf, decodeFlags_encodeFlags]

/-- Settles O49: pc and sp are the constants of R263 by definition, and the registers and the flags are read by
the two lemmas above. -/
theorem resetEntryPoint : Obligations.ResetEntryPoint :=
  ⟨rfl, rfl, State.reset_reg, State.decodeFlags_reset_f⟩

end Sys2Proof.Machine

/-! PROOFS. The decoder and the encoder undo each other, and the dispatcher is total (spec/30_encoding.md R60 to
R63, R66, R67, R71). -/

namespace Sys2Proof

open Sys2Proof.Machine Sys2Proof.Safety

/-! ### Bytes of a word (R7) -/

@[simp] theorem lowByte_joinBytes (x y : Byte) : lowByte (joinBytes x y) = y := by
  have := y.isLt
  refine BitVec.eq_of_toNat_eq ?_
  rw [lowByte_toNat, joinBytes_toNat]
  omega

@[simp] theorem highByte_joinBytes (x y : Byte) : highByte (joinBytes x y) = x := by
  have := y.isLt
  refine BitVec.eq_of_toNat_eq ?_
  rw [highByte_toNat, joinBytes_toNat]
  omega

/-! ### What a row of each shape makes (R60) -/

theorem dispatch_op {op : Byte} {i : Instr} (h : dispatch op = some (.op i) ∨ dispatch op = some (.opPad i)) :
    i.opcode = op ∧ i.immediateBytes = [] := by
  rcases dispatch_cases op with hrow | ⟨mk, hrow, -⟩ | ⟨mk, hrow, -⟩ | ⟨j, hrow | hrow, hj⟩ <;>
    simp only [hrow, reduceCtorEq, Option.some.injEq, Row.op.injEq, Row.opPad.injEq, or_false, false_or] at h
  · exact h ▸ hj
  · exact h ▸ hj

theorem dispatch_opD8 {op : Byte} {mk : Byte → Instr} (h : dispatch op = some (.opD8 mk)) (d : Byte) :
    (mk d).opcode = op ∧ (mk d).immediateBytes = [d] := by
  rcases dispatch_cases op with hrow | ⟨mk, hrow, hmk⟩ | ⟨mk, hrow, -⟩ | ⟨j, hrow | hrow, -⟩ <;>
    cases h.symm.trans hrow
  exact hmk d

theorem dispatch_opD16 {op : Byte} {mk : Word → Instr} (h : dispatch op = some (.opD16 mk)) (v : Word) :
    (mk v).opcode = op ∧ (mk v).immediateBytes = [lowByte v, highByte v] := by
  rcases dispatch_cases op with hrow | ⟨mk, hrow, -⟩ | ⟨mk, hrow, hmk⟩ | ⟨j, hrow | hrow, -⟩ <;>
    cases h.symm.trans hrow
  exact hmk v

/-! ### The decoder and the encoder -/

/-- A decoded list is the encoding of its instruction and whatever follows: the shape of the row says which bytes
the decoder has taken. -/
theorem eq_encode_append_of_decode {bytes : List Byte} {i : Instr} (h : decode bytes = .ok i) :
    ∃ rest, bytes = encode i ++ rest := by
  obtain _ | ⟨op, rest⟩ := bytes
  · cases h
  rcases hrow : dispatch op with _ | (j | mk | mk | j)
  · simp [decode, hrow] at h
  · obtain rfl : j = i := by simpa [decode, hrow] using h
    exact ⟨rest, by simp [encode, dispatch_op (.inl hrow)]⟩
  · obtain _ | ⟨d, rest⟩ := rest
    · simp [decode, hrow] at h
    obtain rfl : mk d = i := by simpa [decode, hrow] using h
    exact ⟨rest, by simp [encode, dispatch_opD8 hrow d]⟩
  · obtain _ | ⟨low, _ | ⟨high, rest⟩⟩ := rest
    · simp [decode, hrow] at h
    · simp [decode, hrow] at h
    obtain rfl : mk (joinBytes high low) = i := by simpa [decode, hrow] using h
    exact ⟨rest, by simp [encode, dispatch_opD16 hrow]⟩
  · obtain rfl : j = i := by simpa [decode, hrow] using h
    exact ⟨rest, by simp [encode, dispatch_op (.inr hrow)]⟩

/-- The row of an instruction's own opcode takes the instruction's own immediate bytes. -/
theorem decode_encode_append (i : Instr) (rest : List Byte) : decode (encode i ++ rest) = .ok i := by
  rcases dispatch_opcode i with hrow | hrow | ⟨mk, d, hrow, hi⟩ | ⟨mk, v, hrow, hi⟩
  · simp [encode, decode, hrow]
  · simp [encode, decode, hrow]
  · have himm : i.immediateBytes = [d] := hi ▸ (dispatch_opD8 hrow d).2
    simp [encode, decode, hrow, himm, ← hi]
  · have himm : i.immediateBytes = [lowByte v, highByte v] := hi ▸ (dispatch_opD16 hrow v).2
    simp [encode, decode, hrow, himm, ← hi]

/-- Settles O1, by the row of the instruction's own opcode. -/
theorem decodeOfEncode : Obligations.DecodeOfEncode := decode_encode_append

/-- Settles O2, by the shape of the row that decoded the list. -/
theorem decodedBytesAreEncoding : Obligations.DecodedBytesAreEncoding := fun _ _ =>
  eq_encode_append_of_decode

/-- Settles O3: each word is the encoding of its instruction, and decoding an encoding gives the instruction. -/
theorem specWordsDecode : Obligations.SpecWordsDecode := by
  have hpad : decode [0x10#8, 0xD3#8] = .ok .stop := decode_encode_append .stop [0xD3#8]
  have hown : ∀ i : Instr, decode (encode i) = .ok i := fun i => by
    simpa using decode_encode_append i []
  exact ⟨hown .nop, hpad, hown .halt, hown (.ldBCd16 0xBEEF#16), hown (.ldAd8 _), hown (.ldAPh0A _), hown .ldIndDEA,
    hown (.ldIndA16SP 0xD000#16), hown .incHL, hown .decDE, hown .incL, hown .decB, hown .rra, hown .addHLBC⟩

/-! ### The opcode lists (R66; spec/20_memory.md R47) -/

theorem opcode_mem_implemented (i : Instr) : i.opcode ∈ implemented := by
  cases i <;> (simp only [Instr.opcode]; decide)

theorem opcode_mem_d8Opcodes_iff (i : Instr) : i.opcode ∈ d8Opcodes ↔ i.immediateBytes.length = 1 := by
  cases i <;> (simp only [Instr.opcode, Instr.immediateBytes, List.length]; decide)

theorem opcode_mem_d16Opcodes_iff (i : Instr) : i.opcode ∈ d16Opcodes ↔ i.immediateBytes.length = 2 := by
  cases i <;> (simp only [Instr.opcode, Instr.immediateBytes, List.length]; decide)

theorem d8Opcodes_subset_implemented : d8Opcodes ⊆ implemented := by decide

theorem d16Opcodes_subset_implemented : d16Opcodes ⊆ implemented := by decide

/-- How many immediate bytes a row asks for. -/
def Row.immediateLength : Row → Nat
  | .op _ => 0
  | .opPad _ => 0
  | .opD8 _ => 1
  | .opD16 _ => 2

/-- The lists name a byte by the row that the dispatcher has for it. -/
theorem opcodeLists_of_dispatch {op : Byte} {row : Row} (hrow : dispatch op = some row) :
    op ∈ implemented ∧ (op ∈ d8Opcodes ↔ row.immediateLength = 1) ∧
      (op ∈ d16Opcodes ↔ row.immediateLength = 2) := by
  have hmade : ∃ i : Instr, i.opcode = op ∧ i.immediateBytes.length = row.immediateLength := by
    cases row with
    | op i => exact ⟨i, (dispatch_op (.inl hrow)).1, congrArg List.length (dispatch_op (.inl hrow)).2⟩
    | opPad i => exact ⟨i, (dispatch_op (.inr hrow)).1, congrArg List.length (dispatch_op (.inr hrow)).2⟩
    | opD8 mk => exact ⟨mk 0, (dispatch_opD8 hrow 0).1, congrArg List.length (dispatch_opD8 hrow 0).2⟩
    | opD16 mk => exact ⟨mk 0, (dispatch_opD16 hrow 0).1, congrArg List.length (dispatch_opD16 hrow 0).2⟩
  obtain ⟨i, rfl, hlength⟩ := hmade
  exact ⟨opcode_mem_implemented i, hlength ▸ opcode_mem_d8Opcodes_iff i, hlength ▸ opcode_mem_d16Opcodes_iff i⟩

theorem isSome_dispatch_of_mem_implemented {op : Byte} (h : op ∈ implemented) : (dispatch op).isSome = true := by
  revert op
  decide

/-- The bytes with a row are the 43 of the list. -/
theorem mem_implemented_iff {op : Byte} : op ∈ implemented ↔ (dispatch op).isSome = true := by
  refine ⟨isSome_dispatch_of_mem_implemented, fun h => ?_⟩
  obtain ⟨row, hrow⟩ := Option.isSome_iff_exists.1 h
  exact (opcodeLists_of_dispatch hrow).1

theorem not_mem_implemented_iff {op : Byte} : op ∉ implemented ↔ dispatch op = none := by
  rw [mem_implemented_iff]
  simp

/-! ### Totality of the dispatcher (R71) -/

theorem decode_cons_eq_unimplemented_iff {op : Byte} {rest : List Byte} :
    decode (op :: rest) = .error (.unimplementedOpcode op) ↔ dispatch op = none := by
  simp only [decode]
  split
  · simp [*]
  · simp [*]
  · simp [*]
  · split <;> simp [*]
  · split <;> simp [*]

theorem opcode_of_decode_cons {op : Byte} {rest : List Byte} {i : Instr} (h : decode (op :: rest) = .ok i) :
    i.opcode = op := by
  obtain ⟨tail, htail⟩ := eq_encode_append_of_decode h
  exact (List.cons.inj htail).1.symm

/-- The length and the cost that the dispatcher declares for an opcode byte; none for an unimplemented one. -/
def declaredFor (c : Config) (op : Byte) : Nat × Nat :=
  match dispatch op with
  | none => (0, 0)
  | some (.op i) => (i.length c, i.cost)
  | some (.opPad i) => (i.length c, i.cost)
  | some (.opD8 mk) => ((mk 0).length c, (mk 0).cost)
  | some (.opD16 mk) => ((mk 0).length c, (mk 0).cost)

theorem declaredFor_opcode (c : Config) (i : Instr) : declaredFor c i.opcode = (i.length c, i.cost) := by
  cases i <;> rfl

/-- Settles O5: the rows are those of the list, a byte without one does not decode, and `declaredFor` gives the
length and the cost. -/
theorem dispatchTotalOnBytes : Obligations.DispatchTotalOnBytes := fun _ _ =>
  ⟨mem_implemented_iff, not_mem_implemented_iff.trans decode_cons_eq_unimplemented_iff.symm,
    fun _ => opcode_of_decode_cons, fun c => ⟨declaredFor c, fun i => (declaredFor_opcode c i).symm⟩⟩

end Sys2Proof

/-! PROOFS. What the fetch answers, by the row of the byte at pc and the place of pc (spec/40_engine.md R103;
spec/60_exceptions.md R231, R235; spec/20_memory.md R47). -/

namespace Sys2Proof.Machine

open Sys2Proof.Safety

/-! ### The fetch by the shape of the row -/

theorem toNat_lt_of_ne_top {pc : Word} (hpc : pc ≠ 0xFFFF#16) : pc.toNat < 0xFFFF := by
  have hne : pc.toNat ≠ 0xFFFF := fun h => hpc (BitVec.eq_of_toNat_eq h)
  omega

theorem ne_top_of_toNat_lt {pc : Word} (hpc : pc.toNat < 0xFFFF) : pc ≠ 0xFFFF#16 := by
  rintro rfl
  exact absurd hpc (by decide)

section
variable {s : State} (hpc : s.pc ≠ 0xFFFF#16)
include hpc

theorem fetch_unimplemented (hrow : dispatch (opcodeAt s) = none) :
    fetch s = .error (.unimplementedOpcode (opcodeAt s) s.pc) := by
  simp only [opcodeAt] at hrow ⊢
  simp only [fetch, load8_pc_of_ne s hpc, hrow]

theorem fetch_row {row : Row} (hrow : dispatch (opcodeAt s) = some row) : fetch s = readImmediate row s := by
  simp only [opcodeAt] at hrow
  simp only [fetch, load8_pc_of_ne s hpc, hrow]

theorem fetch_op {i : Instr}
    (hrow : dispatch (opcodeAt s) = some (.op i) ∨ dispatch (opcodeAt s) = some (.opPad i)) : fetch s = .ok i := by
  rcases hrow with hrow | hrow
  · exact fetch_row hpc hrow
  · exact fetch_row hpc hrow

/-- A row with a d8 reads the byte at pc + 1, or raises when pc is the last address of the store. -/
theorem fetch_opD8_cases {mk : Byte → Instr} (hrow : dispatch (opcodeAt s) = some (.opD8 mk)) :
    (s.pc.toNat < 0xFFFE ∧ fetch s = .ok (mk (s.mem.read (s.pc.toNat + 1)))) ∨
      (s.pc = 0xFFFE#16 ∧ fetch s = .error (.memoryBoundsViolation 0xFFFF 1)) := by
  rw [fetch_row hpc hrow]
  simp only [readImmediate, State.readD8]
  have hsucc := pc_succ_toNat s hpc
  rcases s.mem.load8_cases (s.pc + 1#16) with ⟨hin, hload⟩ | ⟨htop, hload⟩
  · exact .inl ⟨by omega, by rw [hload, hsucc]⟩
  · refine .inr ⟨BitVec.eq_of_toNat_eq ?_, by rw [hload]⟩
    rw [htop] at hsucc
    exact Nat.succ.inj hsucc.symm

/-- A row with a d16 or an a16 reads the two bytes from pc + 1 on, or raises when they are not both inside. -/
theorem fetch_opD16_cases {mk : Word → Instr} (hrow : dispatch (opcodeAt s) = some (.opD16 mk)) :
    (s.pc.toNat < 0xFFFD ∧ fetch s = .ok (mk (immediateAt s))) ∨
      ((s.pc = 0xFFFD#16 ∨ s.pc = 0xFFFE#16) ∧
        fetch s = .error (.memoryBoundsViolation (s.pc.toNat + 1) 2)) := by
  rw [fetch_row hpc hrow]
  simp only [readImmediate, State.readD16]
  have hsucc := pc_succ_toNat s hpc
  have hlt := toNat_lt_of_ne_top hpc
  rcases s.mem.load16_cases (s.pc + 1#16) with ⟨hin, hload⟩ | ⟨hout, hload⟩
  · exact .inl ⟨by omega, by rw [hload, hsucc]; rfl⟩
  · refine .inr ⟨?_, by rw [hload, hsucc]⟩
    rcases (show s.pc.toNat = 0xFFFD ∨ s.pc.toNat = 0xFFFE by omega) with h | h
    · exact .inl (BitVec.eq_of_toNat_eq h)
    · exact .inr (BitVec.eq_of_toNat_eq h)

end

section
variable {s : State} {op : Byte} (hop : opcodeAt s = op)
include hop

theorem fetch_opD8 {mk : Byte → Instr} (hrow : dispatch op = some (.opD8 mk)) (hpc : s.pc.toNat < 0xFFFE) :
    fetch s = .ok (mk (s.mem.read (s.pc.toNat + 1))) := by
  rcases fetch_opD8_cases (ne_top_of_toNat_lt (by omega)) (hop ▸ hrow) with ⟨-, hfetch⟩ | ⟨hout, -⟩
  · exact hfetch
  · simp [hout] at hpc

theorem fetch_opD8_outside {mk : Byte → Instr} (hrow : dispatch op = some (.opD8 mk)) (hpc : s.pc = 0xFFFE#16) :
    fetch s = .error (.memoryBoundsViolation 0xFFFF 1) := by
  rcases fetch_opD8_cases (by simp [hpc]) (hop ▸ hrow) with ⟨hin, -⟩ | ⟨-, hfetch⟩
  · simp [hpc] at hin
  · exact hfetch

theorem fetch_opD16 {mk : Word → Instr} (hrow : dispatch op = some (.opD16 mk)) (hpc : s.pc.toNat < 0xFFFD) :
    fetch s = .ok (mk (immediateAt s)) := by
  rcases fetch_opD16_cases (ne_top_of_toNat_lt (by omega)) (hop ▸ hrow) with ⟨-, hfetch⟩ | ⟨hout | hout, -⟩
  · exact hfetch
  · simp [hout] at hpc
  · simp [hout] at hpc

theorem fetch_opD16_outside {mk : Word → Instr} (hrow : dispatch op = some (.opD16 mk))
    (hpc : s.pc = 0xFFFD#16 ∨ s.pc = 0xFFFE#16) :
    fetch s = .error (.memoryBoundsViolation (s.pc.toNat + 1) 2) := by
  have hne : s.pc ≠ 0xFFFF#16 := by rcases hpc with h | h <;> simp [h]
  rcases fetch_opD16_cases hne (hop ▸ hrow) with ⟨hin, -⟩ | ⟨-, hfetch⟩
  · rcases hpc with h | h <;> simp [h] at hin
  · exact hfetch

end

/-! ### The fetch and the decoder -/

/-- The list the decoder is given: the byte at pc, and as many of the two after it as the store has. -/
theorem bytesAt_of_ne {pc : Word} (m : Memory) (hpc : pc ≠ 0xFFFF#16) :
    bytesAt m pc = m.read pc.toNat ::
      if pc.toNat < 0xFFFE then m.read (pc.toNat + 1) ::
        if pc.toNat < 0xFFFD then [m.read (pc.toNat + 2)] else []
      else [] := by
  have hlt := toNat_lt_of_ne_top hpc
  have hrange : List.range 3 = [0, 1, 2] := rfl
  split_ifs with h1 h2 <;> simp only [bytesAt, hrange, inStore, memSize, List.filter]
  · simp [show pc.toNat + 1 ≤ 65535 by omega, show pc.toNat + 1 + 1 ≤ 65535 by omega,
      show pc.toNat + 2 + 1 ≤ 65535 by omega]
  · simp [show pc.toNat + 1 ≤ 65535 by omega, show pc.toNat + 1 + 1 ≤ 65535 by omega,
      show ¬ pc.toNat + 2 + 1 ≤ 65535 by omega]
  · simp [show pc.toNat + 1 ≤ 65535 by omega, show ¬ pc.toNat + 1 + 1 ≤ 65535 by omega,
      show ¬ pc.toNat + 2 + 1 ≤ 65535 by omega]

theorem bytesAt_top (m : Memory) : bytesAt m 0xFFFF#16 = [] := rfl

/-- No byte of the list lies outside the store. -/
theorem toNat_add_length_bytesAt_le (m : Memory) (pc : Word) : pc.toNat + (bytesAt m pc).length ≤ memSize := by
  by_cases hpc : pc = 0xFFFF#16
  · subst hpc
    exact le_rfl
  have hlt := toNat_lt_of_ne_top hpc
  rw [bytesAt_of_ne m hpc, memSize]
  split_ifs <;> simp only [List.length_cons, List.length_nil] <;> omega

theorem fetch_eq_ok_iff_decode (s : State) (i : Instr) :
    fetch s = .ok i ↔ decode (bytesAt s.mem s.pc) = .ok i := by
  by_cases hpc : s.pc = 0xFFFF#16
  · rw [fetch_at_top s hpc, hpc, bytesAt_top]
    exact iff_of_false (by simp) (by simp [decode])
  rw [bytesAt_of_ne s.mem hpc, ← opcodeAt.eq_def]
  rcases hrow : dispatch (opcodeAt s) with _ | (j | mk | mk | j)
  · simp [fetch_unimplemented hpc hrow, decode, hrow]
  · simp [fetch_op hpc (.inl hrow), decode, hrow]
  · rcases fetch_opD8_cases hpc hrow with ⟨hin, hfetch⟩ | ⟨hout, hfetch⟩
    · simp [hfetch, decode, hrow, hin]
    · simp [hfetch, decode, hrow, hout]
  · rcases fetch_opD16_cases hpc hrow with ⟨hin, hfetch⟩ | ⟨hout | hout, hfetch⟩
    · have hin' : s.pc.toNat < 0xFFFE := by omega
      simp [hfetch, decode, hrow, hin, hin', immediateAt]
    · simp [hfetch, decode, hrow, hout]
    · simp [hfetch, decode, hrow, hout]
  · simp [fetch_op hpc (.inr hrow), decode, hrow]

theorem wellFormedAt_of_fetch {s : State} {i : Instr} (h : fetch s = .ok i) : i.wellFormedAt s.pc = true := by
  obtain ⟨rest, hbytes⟩ := eq_encode_append_of_decode ((fetch_eq_ok_iff_decode s i).1 h)
  have hinside := toNat_add_length_bytesAt_le s.mem s.pc
  rw [hbytes, List.length_append] at hinside
  exact decide_eq_true (by omega)

/-- Settles O7, by the shape of the row of the byte at pc and the place of pc. -/
theorem fetchAgreesWithDecode : Obligations.FetchAgreesWithDecode := fun s i =>
  ⟨fetch_eq_ok_iff_decode s i, wellFormedAt_of_fetch⟩

theorem pc_ne_top_of_fetch {s : State} {i : Instr} (h : fetch s = .ok i) : s.pc ≠ 0xFFFF#16 := by
  intro hpc
  rw [fetch_at_top s hpc] at h
  cases h

theorem opcodeAt_of_fetch {s : State} {i : Instr} (h : fetch s = .ok i) : opcodeAt s = i.opcode := by
  have hdecode := (fetch_eq_ok_iff_decode s i).1 h
  rw [bytesAt_of_ne s.mem (pc_ne_top_of_fetch h)] at hdecode
  exact (opcode_of_decode_cons hdecode).symm

/-! ### The errors of the fetch (R231, R232, R235) -/

/-- The fetch raises in these four cases and no other, in the order of R235. -/
theorem fetch_eq_error_iff (s : State) (err : FatalError) :
    fetch s = .error err ↔
      (s.pc = 0xFFFF#16 ∧ err = .memoryBoundsViolation 0xFFFF 1) ∨
      (s.pc ≠ 0xFFFF#16 ∧ opcodeAt s ∉ implemented ∧ err = .unimplementedOpcode (opcodeAt s) s.pc) ∨
      (s.pc = 0xFFFE#16 ∧ opcodeAt s ∈ d8Opcodes ∧ err = .memoryBoundsViolation 0xFFFF 1) ∨
      ((s.pc = 0xFFFD#16 ∨ s.pc = 0xFFFE#16) ∧ opcodeAt s ∈ d16Opcodes ∧
        err = .memoryBoundsViolation (s.pc.toNat + 1) 2) := by
  by_cases hpc : s.pc = 0xFFFF#16
  · simp [fetch_at_top s hpc, hpc, eq_comm]
  simp only [hpc, false_and, false_or, ne_eq, not_false_eq_true, true_and]
  rcases hrow : dispatch (opcodeAt s) with _ | (j | mk | mk | j)
  · have hnot := not_mem_implemented_iff.2 hrow
    have h8 : opcodeAt s ∉ d8Opcodes := fun h => hnot (d8Opcodes_subset_implemented h)
    have h16 : opcodeAt s ∉ d16Opcodes := fun h => hnot (d16Opcodes_subset_implemented h)
    simp [fetch_unimplemented hpc hrow, hnot, h8, h16, eq_comm]
  all_goals
    obtain ⟨himp, h8, h16⟩ := opcodeLists_of_dispatch hrow
    simp only [himp, h8, h16, Row.immediateLength]
  · simp [fetch_op hpc (.inl hrow)]
  · rcases fetch_opD8_cases hpc hrow with ⟨hin, hfetch⟩ | ⟨hout, hfetch⟩
    · have hne : s.pc ≠ 0xFFFE#16 := fun h => by simp [h] at hin
      simp [hfetch, hne]
    · simp [hfetch, hout, eq_comm]
  · rcases fetch_opD16_cases hpc hrow with ⟨hin, hfetch⟩ | ⟨hout, hfetch⟩
    · have hne : s.pc ≠ 0xFFFD#16 ∧ s.pc ≠ 0xFFFE#16 :=
        ⟨fun h => by simp [h] at hin, fun h => by simp [h] at hin⟩
      simp [hfetch, hne]
    · simp [hfetch, hout, eq_comm]
  · simp [fetch_op hpc (.inr hrow)]

end Sys2Proof.Machine

/-! PROOFS. When an execution raises, and what it does to pc, cycle_count and F when it does not
(spec/60_exceptions.md R231, R232, R234; spec/40_engine.md R103, R107; spec/10_state.md R13, R15). -/

namespace Sys2Proof.Machine

open Sys2Proof.Safety

/-! ### Raising and retiring exclude each other (R234) -/

@[simp] theorem State.raise_eq_raise_iff (s : State) (err err' : FatalError) :
    s.raise err = s.raise err' ↔ err = err' :=
  ⟨fun h => Option.some.inj (congrArg State.fault h), fun h => by rw [h]⟩

theorem State.retired_ne_raise {s u : State} (hcycles : u.cycleCount = s.cycleCount) (len : Nat) {cost : Nat}
    (hcost : 0 < cost) (err : FatalError) : u.retired len cost ≠ s.raise err := by
  intro h
  have hsum : u.cycleCount + cost = s.cycleCount := congrArg State.cycleCount h
  omega

theorem storeAndRetire_eq_raise_iff (addr : Word) (bytes : List Byte) (len : Nat) {cost : Nat} (hcost : 0 < cost)
    (s : State) (err : FatalError) :
    storeAndRetire addr bytes len cost s = .next (s.raise err) ↔
      65535 < addr.toNat + bytes.length ∧ err = .memoryBoundsViolation addr.toNat bytes.length := by
  rcases storeAndRetire_cases addr bytes len cost s with ⟨hin, hstore⟩ | ⟨hout, hstore⟩
  · rw [hstore, Host.Outcome.next.injEq]
    refine iff_of_false (State.retired_ne_raise ?_ len hcost err) (by omega)
    rfl
  · simp [hstore, hout, eq_comm]

theorem exec_ldIndBCA (s : State) : exec .ldIndBCA s = storeAndRetire (s.indirect .BC) [s.a] 1 8 s := rfl

theorem exec_ldIndDEA (s : State) : exec .ldIndDEA s = storeAndRetire (s.indirect .DE) [s.a] 1 8 s := rfl

theorem exec_ldIndA16SP (a16 : Word) (s : State) :
    exec (.ldIndA16SP a16) s = storeAndRetire a16 s.spBytes 3 20 s := rfl

theorem toNat_add_one_gt_iff (v : Word) : 65535 < v.toNat + 1 ↔ v = 0xFFFF#16 := by
  rw [← BitVec.toNat_inj]
  have := v.isLt
  simp only [BitVec.toNat_ofNat]
  omega

theorem toNat_add_two_gt_iff (v : Word) : 65535 < v.toNat + 2 ↔ v = 0xFFFE#16 ∨ v = 0xFFFF#16 := by
  rw [← BitVec.toNat_inj, ← BitVec.toNat_inj]
  have := v.isLt
  simp only [BitVec.toNat_ofNat]
  omega

/-- A store of A through a pair raises exactly at 0xFFFF. -/
theorem storeAccumulator_eq_raise_iff (s : State) (p : Pair) (err : FatalError) :
    storeAndRetire (s.indirect p) [s.a] 1 8 s = .next (s.raise err) ↔
      s.pair p = 0xFFFF#16 ∧ err = .memoryBoundsViolation 0xFFFF 1 := by
  rw [storeAndRetire_eq_raise_iff _ _ _ (by decide)]
  change 65535 < (s.pair p).toNat + 1 ∧ err = .memoryBoundsViolation (s.pair p).toNat 1 ↔ _
  rw [toNat_add_one_gt_iff]
  exact and_congr_right fun h => by rw [h]; rfl

theorem cost_pos (i : Instr) : 0 < i.cost :=
  lt_of_lt_of_le (by decide) (cost_bounds i).1

/-- A meaning raises exactly when it stores outside (spec/20_memory.md R45). -/
theorem exec_eq_raise_iff (i : Instr) (s : State) (err : FatalError) :
    exec i s = .next (s.raise err) ↔
      (i = .ldIndBCA ∧ s.pair .BC = 0xFFFF#16 ∧ err = .memoryBoundsViolation 0xFFFF 1) ∨
      (i = .ldIndDEA ∧ s.pair .DE = 0xFFFF#16 ∧ err = .memoryBoundsViolation 0xFFFF 1) ∨
      ∃ a16, i = .ldIndA16SP a16 ∧ (a16 = 0xFFFE#16 ∨ a16 = 0xFFFF#16) ∧
        err = .memoryBoundsViolation a16.toNat 2 := by
  by_cases hstores : i ∈ [.ldIndBCA, .ldIndDEA] ∨ ∃ a16, i = .ldIndA16SP a16
  · rcases hstores with hmem | ⟨a16, rfl⟩
    · rcases List.mem_pair.1 hmem with rfl | rfl
      · simp [exec_ldIndBCA, storeAccumulator_eq_raise_iff]
      · simp [exec_ldIndDEA, storeAccumulator_eq_raise_iff]
    · rw [exec_ldIndA16SP, storeAndRetire_eq_raise_iff _ _ _ (by decide)]
      simp [State.spBytes, toNat_add_two_gt_iff]
  · rcases exec_cases i s with ⟨u, hretire, heffect⟩ | ⟨hstore, -⟩
    · rw [hretire, Host.Outcome.next.injEq]
      refine iff_of_false (State.retired_ne_raise heffect.cycleCount _ (cost_pos i) err) ?_
      rintro (⟨rfl, -⟩ | ⟨rfl, -⟩ | ⟨a16, rfl, -⟩) <;> simp at hstores
    · exact absurd hstore hstores

theorem execute_of_fetch {s : State} {i : Instr} (h : fetch s = .ok i) : execute s = exec i s := by
  simp [execute, h]

theorem execute_of_fetch_error {s : State} {err : FatalError} (h : fetch s = .error err) :
    execute s = .next (s.raise err) := by
  simp [execute, h]

theorem execute_eq_raise_iff (s : State) (err : FatalError) :
    execute s = .next (s.raise err) ↔
      fetch s = .error err ∨ ∃ i, fetch s = .ok i ∧ exec i s = .next (s.raise err) := by
  rcases hfetch : fetch s with err' | i
  · simp [execute_of_fetch_error hfetch]
  · simp [execute_of_fetch hfetch]

/-! ### Unimplemented opcodes (R231) -/

/-- Settles O4: no meaning raises this error, and the fetch raises it in one case only. -/
theorem unimplementedOpcodeExactly : Obligations.UnimplementedOpcodeExactly := by
  refine ⟨rfl, by decide, fun s op at_ => ?_⟩
  rw [execute_eq_raise_iff]
  constructor
  · rintro (hfetch | ⟨i, -, hexec⟩)
    · rcases (fetch_eq_error_iff s _).1 hfetch with ⟨-, h⟩ | ⟨hpc, hnot, h⟩ | ⟨-, -, h⟩ | ⟨-, -, h⟩ <;> cases h
      exact ⟨hpc, rfl, rfl, hnot⟩
    · rcases (exec_eq_raise_iff i s _).1 hexec with ⟨-, -, h⟩ | ⟨-, -, h⟩ | ⟨_, -, -, h⟩ <;> cases h
  · rintro ⟨hpc, rfl, rfl, hnot⟩
    exact .inl ((fetch_eq_error_iff s _).2 (.inr (.inl ⟨hpc, hnot, rfl⟩)))

/-! ### The table of bounds violations (R232) -/

theorem boundsCause_of_fetch {s : State} {addr n : Nat}
    (h : fetch s = .error (.memoryBoundsViolation addr n)) : BoundsCause s addr n := by
  rcases (fetch_eq_error_iff s _).1 h with ⟨hpc, herr⟩ | ⟨-, -, herr⟩ | ⟨hpc, hop, herr⟩ | ⟨hpc, hop, herr⟩ <;>
    cases herr
  · exact .opcodeFetch hpc
  · exact .readD8 hpc hop
  · exact .readD16 hpc hop

/-- The address of a fetched LD (a16),SP is the immediate at pc, which lies inside the store. -/
theorem fetch_ldIndA16SP_iff (s : State) (a16 : Word) :
    fetch s = .ok (.ldIndA16SP a16) ↔ s.pc.toNat < 0xFFFD ∧ opcodeAt s = 0x08#8 ∧ a16 = immediateAt s := by
  have hrow : dispatch 0x08#8 = some (.opD16 .ldIndA16SP) := rfl
  constructor
  · intro h
    have hop : opcodeAt s = 0x08#8 := opcodeAt_of_fetch h
    rcases fetch_opD16_cases (pc_ne_top_of_fetch h) (hop ▸ hrow) with ⟨hpc, hfetch⟩ | ⟨-, hfetch⟩
    · cases hfetch.symm.trans h
      exact ⟨hpc, hop, rfl⟩
    · cases hfetch.symm.trans h
  · rintro ⟨hpc, hop, rfl⟩
    exact fetch_opD16 hop hrow hpc

theorem boundsCause_of_exec {s : State} {i : Instr} {addr n : Nat} (hfetch : fetch s = .ok i)
    (h : exec i s = .next (s.raise (.memoryBoundsViolation addr n))) : BoundsCause s addr n := by
  have hpc : s.pc ≠ 0xFFFF#16 := pc_ne_top_of_fetch hfetch
  have hop : opcodeAt s = i.opcode := opcodeAt_of_fetch hfetch
  rcases (exec_eq_raise_iff i s _).1 h with ⟨rfl, hpair, herr⟩ | ⟨rfl, hpair, herr⟩ | ⟨a16, rfl, haddr, herr⟩ <;>
    cases herr
  · exact .storeBC hpc hop hpair
  · exact .storeDE hpc hop hpair
  · obtain ⟨hin, hop, rfl⟩ := (fetch_ldIndA16SP_iff s a16).1 hfetch
    exact .storeSP hin hop haddr

theorem execute_of_boundsCause {s : State} {addr n : Nat} (h : BoundsCause s addr n) :
    execute s = .next (s.raise (.memoryBoundsViolation addr n)) := by
  rw [execute_eq_raise_iff, fetch_eq_error_iff]
  simp only [exec_eq_raise_iff]
  cases h with
  | opcodeFetch hpc => exact .inl (.inl ⟨hpc, rfl⟩)
  | readD8 hpc hop => exact .inl (.inr (.inr (.inl ⟨hpc, hop, rfl⟩)))
  | readD16 hpc hop => exact .inl (.inr (.inr (.inr ⟨hpc, hop, rfl⟩)))
  | storeBC hpc hop hpair => exact .inr ⟨_, fetch_op hpc (.inl (by rw [hop]; rfl)), .inl ⟨rfl, hpair, rfl⟩⟩
  | storeDE hpc hop hpair => exact .inr ⟨_, fetch_op hpc (.inl (by rw [hop]; rfl)), .inr (.inl ⟨rfl, hpair, rfl⟩)⟩
  | storeSP hpc hop haddr =>
    exact .inr ⟨_, (fetch_ldIndA16SP_iff s _).2 ⟨hpc, hop, rfl⟩, .inr (.inr ⟨_, rfl, haddr, rfl⟩)⟩

/-- Settles O8: the causes are those of the fetch and those of the three stores. -/
theorem boundsViolationTable : Obligations.BoundsViolationTable := by
  refine fun s addr n => ⟨fun h => ?_, execute_of_boundsCause⟩
  rcases (execute_eq_raise_iff s _).1 h with hfetch | ⟨i, hfetch, hexec⟩
  · exact boundsCause_of_fetch hfetch
  · exact boundsCause_of_exec hfetch hexec

/-! ### Precise errors (R234) -/

/-- Settles O9: an execution that retires adds a cost that is not zero, and a raise is `State.raise`. -/
theorem errorsArePrecise : Obligations.ErrorsArePrecise := by
  intro s
  rcases execute_retires_or_raises s with ⟨i, u, -, hretire, heffect⟩ | ⟨err, hraise⟩
  · refine ⟨_, hretire, .inl ⟨heffect.fault, heffect.runActive, ?_⟩⟩
    rw [State.retired_cycleCount, heffect.cycleCount]
    exact Nat.lt_add_of_pos_right (cost_pos i)
  · exact ⟨_, hraise, .inr ⟨err, rfl⟩⟩

/-! ### Declared length and cost (R107) -/

/-- Settles O12: `exec_cases` retires by the declared length and cost. -/
theorem declaredLengthAndCost : Obligations.DeclaredLengthAndCost := by
  intro i s t h
  rcases exec_cases i s with ⟨u, hretire, heffect⟩ | ⟨-, err, hraise⟩
  · cases hretire.symm.trans h
    exact .inr (.retired heffect.pc heffect.cycleCount _ _)
  · cases hraise.symm.trans h
    exact .inl ⟨err, rfl⟩

/-- Settles O11: what retires adds its declared cost, which is the row of its opcode byte. -/
theorem costTable : Obligations.CostTable := by
  intro i s t h
  refine (declaredLengthAndCost i s t h).imp_right fun hretires => ?_
  simp only [hretires.cycleCount, Nat.add_left_cancel_iff]
  cases i <;> (simp only [Instr.cost, Instr.opcode]; decide)

/-! ### Who writes F (R13, R15) -/

theorem storeAndRetire_f {addr : Word} {bytes : List Byte} {len cost : Nat} {s t : State}
    (h : storeAndRetire addr bytes len cost s = .next t) : t.f = s.f := by
  rcases storeAndRetire_cases addr bytes len cost s with ⟨-, hstore⟩ | ⟨-, hstore⟩
  · cases hstore.symm.trans h
    rfl
  · cases hstore.symm.trans h
    rfl

theorem exec_f_of_not_mem_flagOpcodes {i : Instr} {s t : State} (hop : i.opcode ∉ flagOpcodes)
    (h : exec i s = .next t) : t.f = s.f := by
  cases i
  case ldIndBCA | ldIndDEA | ldIndA16SP => exact storeAndRetire_f h
  case incA | incB | incC | incD | incE | incH | incL | decA | decB | decC | decD | decE | decH | decL | rlca | rrca |
      rla | rra | addHLBC => exact absurd (by decide) hop
  all_goals
    cases h
    rfl

theorem exec_lowNibble {i : Instr} {s t : State} (h : exec i s = .next t) :
    t.f &&& 0x0F#8 = s.f &&& 0x0F#8 := by
  rcases exec_cases i s with ⟨u, hretire, heffect⟩ | ⟨-, err, hraise⟩
  · cases hretire.symm.trans h
    exact heffect.lowNibble
  · cases hraise.symm.trans h
    rfl

/-- Settles O30, by the two lemmas above. -/
theorem flagsChangedOnlyByListed : Obligations.FlagsChangedOnlyByListed := fun _ _ _ h =>
  ⟨fun hop => exec_f_of_not_mem_flagOpcodes hop h, exec_lowNibble h⟩

end Sys2Proof.Machine

/-! PROOFS. Registers, pairs and the loads (spec/10_state.md R13, R17; spec/42_loads.md R130 to R142). -/

namespace Sys2Proof.Machine

/-! ### Writing a pair and reading it back (R17) -/

theorem State.reg_setPair_pairHigh (s : State) (p : Pair) (v : Word) :
    (s.setPair p v).reg (pairHigh p) = highByte v := by
  simp [State.setPair, pairHigh_ne_pairLow, pairHigh_ne_F]

theorem State.reg_setPair_pairLow (s : State) (p : Pair) (v : Word) :
    (s.setPair p v).reg (pairLow p) = if p = .AF then lowByte v &&& 0xF0#8 else lowByte v := by
  cases p <;> rfl

/-- Masking the low four bits of a word masks its low byte. -/
theorem joinBytes_masked (v : Word) : joinBytes (highByte v) (lowByte v &&& 0xF0#8) = v &&& 0xFFF0#16 := by
  have hhigh : highByte (v &&& 0xFFF0#16) = highByte v := by
    rw [highByte, BitVec.extractLsb'_and]
    exact BitVec.and_allOnes
  have hlow : lowByte (v &&& 0xFFF0#16) = lowByte v &&& 0xF0#8 := BitVec.extractLsb'_and
  rw [← hhigh, ← hlow, joinBytes_high_low]

theorem State.pair_setPair_self (s : State) (p : Pair) (v : Word) :
    (s.setPair p v).pair p = if p = .AF then v &&& 0xFFF0#16 else v := by
  rw [State.pair, State.reg_setPair_pairHigh, State.reg_setPair_pairLow]
  split
  · exact joinBytes_masked v
  · exact joinBytes_high_low v

/-- Settles O33, by the pair laws above. -/
theorem pairWriteReadsBack : Obligations.PairWriteReadsBack := fun s v =>
  ⟨fun p hp => (s.pair_setPair_self p v).trans (if_neg hp), s.pair_setPair_self .AF v,
    fun p r => s.reg_setPair_of_ne p v r⟩

end Sys2Proof.Machine

namespace Sys2Proof.Safety

open Sys2Proof.Machine

/-- Writing a pair whose two registers are in the list keeps the frame. -/
theorem Frame.setPair {written : List Reg} {s u : State} (h : Frame written s u) {p : Pair}
    (hHigh : pairHigh p ∈ written) (hLow : pairLow p ∈ written) (v : Word) : Frame written s (u.setPair p v) :=
  (h.setReg hHigh (highByte v)).setReg hLow (lowByte v)

end Sys2Proof.Safety

namespace Sys2Proof.Machine

open Sys2Proof.Safety

/-! ### Effects that write one register or one pair -/

theorem retired_setReg (s : State) {r : Reg} (hr : r ≠ .F) (v : Byte) (len cost : Nat) :
    let t := (s.setReg r v).retired len cost
    t.reg r = v ∧ Frame [r] s t ∧ Retires len cost s t :=
  ⟨by simp [hr], ((Frame.refl [r] s).setReg (by simp) v).retired len cost, .retired (by simp) (by simp) len cost⟩

theorem retired_setPair (s : State) {p : Pair} (hp : p ≠ .AF) (v : Word) (len cost : Nat) :
    let t := (s.setPair p v).retired len cost
    t.pair p = v ∧ Frame [pairHigh p, pairLow p] s t ∧ Retires len cost s t :=
  ⟨by simp [State.pair_setPair_self, hp],
    ((Frame.refl [pairHigh p, pairLow p] s).setPair (by simp) (by simp) v).retired len cost,
    .retired (by simp) (by simp) len cost⟩

/-! ### LD r16,d16 (R130 to R132) -/

/-- The rows of R130 to R132: the instruction of an immediate, its pair and its opcode byte. -/
def loadPairRows : List ((Word → Instr) × Pair × Byte) :=
  [(.ldBCd16, .BC, 0x01#8), (.ldDEd16, .DE, 0x11#8), (.ldHLd16, .HL, 0x21#8)]

theorem of_mem_loadPairRows {mk : Word → Instr} {p : Pair} {op : Byte} (hrow : (mk, p, op) ∈ loadPairRows) :
    p ≠ .AF ∧ dispatch op = some (.opD16 mk) ∧
      ∀ v s, exec (mk v) s = .next ((s.setPair p v).retired 3 12) := by
  simp only [loadPairRows, List.mem_cons, Prod.mk.injEq, List.not_mem_nil, or_false] at hrow
  rcases hrow with ⟨rfl, rfl, rfl⟩ | ⟨rfl, rfl, rfl⟩ | ⟨rfl, rfl, rfl⟩ <;> exact ⟨by decide, rfl, fun _ _ => rfl⟩

/-- Settles O16: each row retires one pair write, and the fetch of a d16 is `fetch_opD16_cases`. -/
theorem loadPairImmediate : Obligations.LoadPairImmediate := by
  intro mk p op hrow s
  obtain ⟨hp, hdispatch, hexec⟩ := of_mem_loadPairRows hrow
  refine ⟨fun v => ?_, fun hop => fetch_opD16 hop hdispatch, fun hop hpc =>
    execute_of_fetch_error (fetch_opD16_outside hop hdispatch hpc)⟩
  obtain ⟨hpair, hframe, hretires⟩ := retired_setPair s hp v 3 12
  refine ⟨_, hexec v s, hpair, ?_, ?_, hframe, hretires⟩
  · rw [State.reg_retired, State.reg_setPair_pairHigh, highByte]
  · rw [State.reg_retired, State.reg_setPair_pairLow, if_neg hp, lowByte]

/-! ### LD r8,d8 (R133 to R139) -/

/-- The rows of R133 to R139: the instruction of an immediate, its register and its opcode byte. -/
def loadRegRows : List ((Byte → Instr) × Reg × Byte) :=
  [(.ldBd8, .B, 0x06#8), (.ldCd8, .C, 0x0E#8), (.ldDd8, .D, 0x16#8), (.ldEd8, .E, 0x1E#8), (.ldHd8, .H, 0x26#8),
    (.ldLd8, .L, 0x2E#8), (.ldAd8, .A, 0x3E#8)]

theorem of_mem_loadRegRows {mk : Byte → Instr} {r : Reg} {op : Byte} (hrow : (mk, r, op) ∈ loadRegRows) :
    r ≠ .F ∧ dispatch op = some (.opD8 mk) ∧
      ∀ v s, exec (mk v) s = .next ((s.setReg r v).retired 2 8) := by
  simp only [loadRegRows, List.mem_cons, Prod.mk.injEq, List.not_mem_nil, or_false] at hrow
  rcases hrow with ⟨rfl, rfl, rfl⟩ | ⟨rfl, rfl, rfl⟩ | ⟨rfl, rfl, rfl⟩ | ⟨rfl, rfl, rfl⟩ | ⟨rfl, rfl, rfl⟩ |
    ⟨rfl, rfl, rfl⟩ | ⟨rfl, rfl, rfl⟩ <;> exact ⟨by decide, rfl, fun _ _ => rfl⟩

/-- Settles O17: each row retires one register write, and the fetch of a d8 is `fetch_opD8_cases`. -/
theorem loadRegImmediate : Obligations.LoadRegImmediate := by
  intro mk r op hrow s
  obtain ⟨hr, hdispatch, hexec⟩ := of_mem_loadRegRows hrow
  exact ⟨fun v => ⟨_, hexec v s, retired_setReg s hr v 2 8⟩, fun hop => fetch_opD8 hop hdispatch, fun hop hpc =>
    execute_of_fetch_error (fetch_opD8_outside hop hdispatch hpc)⟩

/-! ### The placeholder loads (R140, R141) -/

/-- The rows of R140 and R141 in a machine: the instruction of the byte read, its length and its opcode byte. -/
def placeholderRows (c : Config) : List ((Byte → Instr) × PhLen × Byte) :=
  [(.ldAPh0A, c.ldaPhLen0A, 0x0A#8), (.ldAPh1A, c.ldaPhLen1A, 0x1A#8)]

theorem of_mem_placeholderRows {mk : Byte → Instr} {len : PhLen} {op : Byte} {s : State}
    (hrow : (mk, len, op) ∈ placeholderRows s.config) :
    dispatch op = some (.opD8 mk) ∧
      ∀ v, exec (mk v) s = .next ((s.setReg .A v).retired (phLen len) 8) := by
  simp only [placeholderRows, List.mem_cons, Prod.mk.injEq, List.not_mem_nil, or_false] at hrow
  rcases hrow with ⟨rfl, rfl, rfl⟩ | ⟨rfl, rfl, rfl⟩ <;> exact ⟨rfl, fun _ => rfl⟩

/-- Settles O18: each row retires one write of A by its length parameter, and is fetched as a d8. -/
theorem placeholderLoads : Obligations.PlaceholderLoads := by
  intro mk len op s hrow
  obtain ⟨hdispatch, hexec⟩ := of_mem_placeholderRows hrow
  refine ⟨fun v => ?_, fun hop => fetch_opD8 hop hdispatch, fun hop hpc =>
    execute_of_fetch_error (fetch_opD8_outside hop hdispatch hpc)⟩
  obtain ⟨ha, hframe, hretires⟩ := retired_setReg s (r := .A) (by decide) v (phLen len) 8
  exact ⟨_, hexec v, ha, hframe, fun hlen => by subst hlen; exact hretires, fun hlen => by subst hlen; exact hretires⟩

end Sys2Proof.Machine

/-! PROOFS. Reads and writes of the store, and the storing instructions (spec/20_memory.md R42 to R48;
spec/43_stores.md R150 to R152). -/

namespace Sys2Proof.Machine

open Sys2Proof.Safety

/-! ### Checked reads (R42 to R44) -/

theorem Memory.load8_of_inside (m : Memory) {addr : Word} (h : addr.toNat < 65535) :
    m.load8 addr = .ok (m.read addr.toNat) := by
  rcases m.load8_cases addr with ⟨-, hload⟩ | ⟨htop, -⟩
  · exact hload
  · exact absurd htop (ne_top_of_toNat_lt h)

theorem Memory.load8_top (m : Memory) : m.load8 0xFFFF#16 = .error (.memoryBoundsViolation 0xFFFF 1) := rfl

theorem Memory.load16_of_inside (m : Memory) {addr : Word} (h : addr.toNat < 0xFFFE) :
    m.load16 addr = .ok (joinBytes (m.read (addr.toNat + 1)) (m.read addr.toNat)) := by
  rcases m.load16_cases addr with ⟨-, hload⟩ | ⟨hout, -⟩
  · exact hload
  · omega

theorem Memory.load16_of_outside (m : Memory) {addr : Word} (h : 0xFFFE ≤ addr.toNat) :
    m.load16 addr = .error (.memoryBoundsViolation addr.toNat 2) := by
  rcases m.load16_cases addr with ⟨hin, -⟩ | ⟨-, hload⟩
  · omega
  · exact hload

/-- A word written inside the store reads back whole and by halves. -/
theorem Memory.loads_writeBytes_word (m : Memory) {addr : Word} (h : addr.toNat < 0xFFFE) (v : Word) :
    let m' := m.writeBytes addr.toNat [lowByte v, highByte v]
    m'.load16 addr = .ok v ∧ m'.load8 addr = .ok (lowByte v) ∧ m'.load8 (addr + 1#16) = .ok (highByte v) := by
  have hsucc : (addr + 1#16).toNat = addr.toNat + 1 := by
    rw [BitVec.toNat_add]
    exact Nat.mod_eq_of_lt (by simp only [BitVec.toNat_ofNat]; omega)
  refine ⟨?_, ?_, ?_⟩
  · rw [Memory.load16_of_inside _ h]
    simp
  · rw [Memory.load8_of_inside _ (by omega)]
    simp
  · rw [Memory.load8_of_inside _ (by omega), hsucc]
    simp

/-- Settles O36: the checked reads by the place of the address, and a word read back from the two bytes of its
write. -/
theorem loadsAreLittleEndian : Obligations.LoadsAreLittleEndian := by
  intro m addr v
  refine ⟨fun hne => m.load8_of_inside (toNat_lt_of_ne_top hne), fun htop => htop ▸ m.load8_top,
    m.load16_of_outside, fun hin => ⟨⟨_, m.load16_of_inside hin, joinBytes_toNat _ _⟩, ?_⟩⟩
  have hfits : addr.toNat + [lowByte v, highByte v].length ≤ 65535 := by
    simp only [List.length_cons, List.length_nil]
    omega
  exact ⟨_, m.store_of_inside hfits, m.loads_writeBytes_word hin v⟩

/-! ### What a storing instruction does (R45, R150 to R152) -/

theorem storeAndRetire_of_outside {addr : Word} {bytes : List Byte} {cost : Nat} (hcost : 0 < cost)
    (h : 65535 < addr.toNat + bytes.length) (len : Nat) (s : State) :
    storeAndRetire addr bytes len cost s = .next (s.raise (.memoryBoundsViolation addr.toNat bytes.length)) :=
  (storeAndRetire_eq_raise_iff addr bytes len hcost s _).2 ⟨h, rfl⟩

/-- Inside the store the bytes are written, and nothing else changes but pc and cycle_count. -/
theorem storeAndRetire_of_inside {addr : Word} {bytes : List Byte} (h : addr.toNat + bytes.length ≤ 65535)
    (len cost : Nat) (s : State) :
    ∃ t, storeAndRetire addr bytes len cost s = .next t ∧ t.mem = s.mem.writeBytes addr.toNat bytes ∧
      KeepsMemoryBeside addr.toNat bytes.length s t ∧ KeepsRegs [] s t ∧ KeepsSystem s t ∧
      Retires len cost s t := by
  rcases storeAndRetire_cases addr bytes len cost s with ⟨-, hstore⟩ | ⟨hout, -⟩
  · have hregs : KeepsRegs [] s { s with mem := s.mem.writeBytes addr.toNat bytes } := fun r _ => by
      cases r <;> rfl
    exact ⟨_, hstore, rfl, s.mem.read_writeBytes_outside addr.toNat bytes,
      fun r hr => (State.reg_retired _ len cost r).trans (hregs r hr), { KeepsSystem.refl s with }, ⟨rfl, rfl⟩⟩
  · omega

theorem exec_of_mem_storeRows {i : Instr} {p : Pair}
    (hrow : (i, p) ∈ [(Instr.ldIndBCA, Pair.BC), (Instr.ldIndDEA, Pair.DE)]) (s : State) :
    exec i s = storeAndRetire (s.indirect p) [s.a] 1 8 s := by
  fin_cases hrow <;> rfl

/-- Settles O19: both rows store the one byte A at the pair. -/
theorem storeAccumulatorIndirect : Obligations.StoreAccumulatorIndirect := by
  rintro i p hrow s addr rfl
  rw [exec_of_mem_storeRows hrow s]
  constructor
  · intro hin
    obtain ⟨t, hstore, hmem, hkeeps⟩ := storeAndRetire_of_inside (bytes := [s.a]) (Nat.succ_le_of_lt hin) 1 8 s
    exact ⟨t, hstore, by rw [hmem, Memory.read_writeBytes_first], hkeeps⟩
  · intro htop
    rw [storeAndRetire_of_outside (by decide) (by rw [htop]; exact Nat.lt_succ_self _), htop]
    rfl

/-- Settles O20: SP's two bytes are stored low byte first, or none of them. -/
theorem storeStackPointer : Obligations.StoreStackPointer := by
  intro s a16
  have hlength : s.spBytes.length = 2 := rfl
  rw [exec_ldIndA16SP]
  constructor
  · intro hin
    obtain ⟨t, hstore, hmem, hkeeps⟩ := storeAndRetire_of_inside (bytes := s.spBytes) (addr := a16)
      (by rw [hlength]; omega) 3 20 s
    refine ⟨t, hstore, ?_, ?_, hkeeps⟩
    · rw [hmem, State.spBytes, Memory.read_writeBytes_first, lowByte]
    · rw [hmem, State.spBytes, Memory.read_writeBytes_second, highByte]
  · intro hout
    exact storeAndRetire_of_outside (by decide) (by rw [hlength]; omega) 3 s

/-! ### Stores into the instruction stream (R47, R48) -/

/-- A byte that decodes alone is an opcode without an immediate. -/
theorem dispatch_of_decode_singleton {op : Byte} {i : Instr} (h : decode [op] = .ok i) :
    dispatch op = some (.op i) ∨ dispatch op = some (.opPad i) := by
  rcases hrow : dispatch op with _ | (j | mk | mk | j) <;> simp [decode, hrow] at h ⊢
  · exact h
  · exact h

/-- Settles O21: the byte stored is the opcode at the new pc, and its row asks for no immediate. -/
theorem fetchSeesEarlierStore : Obligations.FetchSeesEarlierStore := by
  intro s i hpair hne hdecode
  obtain ⟨t, hstore, hmem, -, -, -, hretires⟩ := storeAndRetire_of_inside (addr := s.indirect .BC) (bytes := [s.a])
    (Nat.succ_le_of_lt (toNat_lt_of_ne_top hne)) 1 8 s
  have hpc : t.pc = s.indirect .BC := hretires.pc.trans hpair.symm
  have hop : opcodeAt t = s.a := by rw [opcodeAt, hpc, hmem, Memory.read_writeBytes_first]
  have hfetch : fetch t = .ok i := fetch_op (hpc ▸ hne) (hop ▸ dispatch_of_decode_singleton hdecode)
  exact ⟨t, hstore, execute_of_fetch hfetch⟩

end Sys2Proof.Machine

/-! PROOFS. 16-bit arithmetic and the rotates (spec/44_incdec.md R160 to R165; spec/45_rotates.md R190 to R194;
spec/46_add16.md R200). -/

namespace Sys2Proof.Machine

open Sys2Proof.Safety

/-! ### INC r16 and DEC r16 (R160 to R165) -/

/-- Settles O22: each row retires one pair write, of the pair plus one. -/
theorem incrementPair : Obligations.IncrementPair := by
  intro i p hrow s
  have hexec : p ≠ .AF ∧ exec i s = .next ((s.setPair p (s.pair p + 1#16)).retired 1 8) := by
    fin_cases hrow <;> exact ⟨by decide, rfl⟩
  obtain ⟨hpair, hspec⟩ := retired_setPair s hexec.1 (s.pair p + 1#16) 1 8
  exact ⟨_, hexec.2, by rw [hpair]; exact BitVec.toNat_add _ _, hspec⟩

theorem toNat_word_sub_one (v : Word) : (v - 1#16).toNat = (v.toNat + 65535) % 65536 := by
  rw [BitVec.toNat_sub, Nat.add_comm]
  rfl

/-- Settles O23: each row retires one pair write, of the pair minus one. -/
theorem decrementPair : Obligations.DecrementPair := by
  intro i p hrow s
  have hexec : p ≠ .AF ∧ exec i s = .next ((s.setPair p (s.pair p - 1#16)).retired 1 8) := by
    fin_cases hrow <;> exact ⟨by decide, rfl⟩
  obtain ⟨hpair, hspec⟩ := retired_setPair s hexec.1 (s.pair p - 1#16) 1 8
  exact ⟨_, hexec.2, by rw [hpair]; exact toNat_word_sub_one _, hspec⟩

/-! ### ADD HL,BC (R200) -/

theorem halfCarry16_eq (x y : Word) :
    halfCarry16 x y = decide (x.toNat % 2048 + y.toNat % 2048 > 2047) := by
  have hmask : ∀ n : Nat, n &&& addHlHalfMask = n % 2048 := fun n => Nat.and_two_pow_sub_one_eq_mod n 11
  rw [halfCarry16, hmask, hmask]
  rfl

theorem carry16_eq (x y : Word) : carry16 x y = decide (x.toNat + y.toNat > 65535) := by
  have := y.isLt
  rw [carry16, decide_eq_decide]
  omega

theorem State.addHl_eq (s : State) :
    s.addHl = (s.setPair .HL (s.pair .HL + s.pair .BC)).setFlags (flagZ s.f) false
      (decide ((s.pair .HL).toNat % 2048 + (s.pair .BC).toNat % 2048 > 2047))
      (decide ((s.pair .HL).toNat + (s.pair .BC).toNat > 65535)) := by
  rw [← halfCarry16_eq, ← carry16_eq]
  rfl

theorem exec_addHLBC (s : State) : exec .addHLBC s = .next (s.addHl.retired 1 8) := rfl

/-- Settles O29: one write of HL and one flag update, with the carries as arithmetic on the old pairs. -/
theorem addPairToHL : Obligations.AddPairToHL := by
  intro s
  refine ⟨_, exec_addHLBC s, ?_, ?_, ?_, ⟨rfl, rfl⟩⟩
  · have hsum : s.addHl.pair .HL = s.pair .HL + s.pair .BC := s.pair_setPair_self .HL _
    rw [State.pair_retired, hsum]
    exact BitVec.toNat_add _ _
  · rw [State.addHl_eq]
    exact (FlagsAre.setFlags (by simp) _ _ _ _).retired 1 8
  · rw [State.addHl_eq]
    exact (((Frame.refl _ s).setPair (by decide) (by decide) _).setFlags (by decide) _ _ _ _).retired 1 8

/-! ### The shifts as arithmetic on the byte -/

theorem getLsbD_seven (a : Byte) : a.getLsbD 7 = decide (128 ≤ a.toNat) :=
  BitVec.msb_eq_decide a

theorem getLsbD_zero (a : Byte) : a.getLsbD 0 = decide (a.toNat % 2 = 1) :=
  Nat.testBit_zero a.toNat

theorem shiftLeftIn_toNat (a : Byte) (low : Bool) : (shiftLeftIn a low).toNat = a.toNat * 2 % 256 + low.toNat := by
  have hfree : ∀ x : Byte, x <<< 1 &&& 0x01#8 = 0x00#8 := by decide
  have hdisjoint : a <<< 1 &&& (if low then 0x01#8 else 0x00#8) = 0x00#8 := by
    cases low
    · exact BitVec.and_zero
    · exact hfree a
  have hlow : (if low then 0x01#8 else 0x00#8 : Byte).toNat = low.toNat := by cases low <;> rfl
  have := Bool.toNat_le low
  rw [shiftLeftIn, ← BitVec.add_eq_or_of_and_eq_zero _ _ hdisjoint, BitVec.toNat_add, hlow, BitVec.toNat_shiftLeft,
    Nat.shiftLeft_eq]
  omega

theorem shiftRightIn_toNat (a : Byte) (high : Bool) :
    (shiftRightIn a high).toNat = a.toNat / 2 + high.toNat * 128 := by
  have hfree : ∀ x : Byte, x >>> 1 &&& 0x80#8 = 0x00#8 := by decide
  have hdisjoint : a >>> 1 &&& (if high then 0x80#8 else 0x00#8) = 0x00#8 := by
    cases high
    · exact BitVec.and_zero
    · exact hfree a
  have hhigh : (if high then 0x80#8 else 0x00#8 : Byte).toNat = high.toNat * 128 := by cases high <;> rfl
  have := a.isLt
  have := Bool.toNat_le high
  rw [shiftRightIn, ← BitVec.add_eq_or_of_and_eq_zero _ _ hdisjoint, BitVec.toNat_add, hhigh,
    BitVec.toNat_ushiftRight, Nat.shiftRight_eq_div_pow]
  omega

theorem toNat_decide (p : Prop) [Decidable p] : (decide p).toNat = if p then 1 else 0 := by
  split <;> simp [*]

/-- The bit that a left shift brings in is bit 0 of the result. -/
theorem getLsbD_shiftLeftIn (a : Byte) (low : Bool) : (shiftLeftIn a low).getLsbD 0 = low := by
  rw [getLsbD_zero, shiftLeftIn_toNat]
  cases low <;> simp only [Bool.toNat_false, Bool.toNat_true, decide_eq_true_eq, decide_eq_false_iff_not] <;> omega

/-- The bit that a right shift brings in is bit 7 of the result. -/
theorem getLsbD_shiftRightIn (a : Byte) (high : Bool) : (shiftRightIn a high).getLsbD 7 = high := by
  have := a.isLt
  rw [getLsbD_seven, shiftRightIn_toNat]
  cases high <;> simp only [Bool.toNat_false, Bool.toNat_true, decide_eq_true_eq, decide_eq_false_iff_not] <;> omega

theorem shiftRightIn_shiftLeftIn (a : Byte) (low : Bool) :
    shiftRightIn (shiftLeftIn a low) (a.getLsbD 7) = a := by
  have := a.isLt
  have := Bool.toNat_le low
  refine BitVec.eq_of_toNat_eq ?_
  rw [shiftRightIn_toNat, shiftLeftIn_toNat, getLsbD_seven, toNat_decide]
  split <;> omega

theorem shiftLeftIn_shiftRightIn (a : Byte) (high : Bool) :
    shiftLeftIn (shiftRightIn a high) (a.getLsbD 0) = a := by
  have := a.isLt
  have := Bool.toNat_le high
  refine BitVec.eq_of_toNat_eq ?_
  rw [shiftLeftIn_toNat, shiftRightIn_toNat, getLsbD_zero, toNat_decide]
  split <;> omega

/-! ### The rotates (R190 to R193) -/

theorem exec_rlca (s : State) :
    exec .rlca s = .next ((s.rotated (shiftLeftIn s.a (s.a.getLsbD 7)) (s.a.getLsbD 7)).retired 1 4) := rfl

theorem exec_rrca (s : State) :
    exec .rrca s = .next ((s.rotated (shiftRightIn s.a (s.a.getLsbD 0)) (s.a.getLsbD 0)).retired 1 4) := rfl

theorem exec_rla (s : State) :
    exec .rla s = .next ((s.rotated (shiftLeftIn s.a (flagC s.f)) (s.a.getLsbD 7)).retired 1 4) := rfl

theorem exec_rra (s : State) :
    exec .rra s = .next ((s.rotated (shiftRightIn s.a (flagC s.f)) (s.a.getLsbD 0)).retired 1 4) := rfl

/-- What a rotate gives and leaves: A is the result, C the bit out, and the other flags are clear. -/
theorem retired_rotated (s : State) (result : Byte) (out : Bool) :
    let t := (s.rotated result out).retired 1 4
    t.a = result ∧ FlagsAre false false false out s t ∧ Frame [.A, .F] s t ∧ Retires 1 4 s t :=
  retired_setReg_setFlags s (r := .A) (by decide) result false false false out 1 4

/-- Settles O26: both rotate A and bring the bit out in at the other end. -/
theorem rotateCircular : Obligations.RotateCircular := by
  intro s
  constructor
  · obtain ⟨ha, hspec⟩ := retired_rotated s (shiftLeftIn s.a (s.a.getLsbD 7)) (s.a.getLsbD 7)
    rw [← getLsbD_seven]
    refine ⟨_, exec_rlca s, ?_, hspec⟩
    have := s.a.isLt
    rw [ha, shiftLeftIn_toNat, getLsbD_seven, toNat_decide]
    split <;> omega
  · obtain ⟨ha, hspec⟩ := retired_rotated s (shiftRightIn s.a (s.a.getLsbD 0)) (s.a.getLsbD 0)
    rw [← getLsbD_zero]
    refine ⟨_, exec_rrca s, ?_, hspec⟩
    rw [ha, shiftRightIn_toNat, getLsbD_zero, toNat_decide]
    split <;> omega

/-- Settles O27: both rotate A and bring the old carry in. -/
theorem rotateThroughCarry : Obligations.RotateThroughCarry := by
  intro s
  constructor
  · obtain ⟨ha, hspec⟩ := retired_rotated s (shiftLeftIn s.a (flagC s.f)) (s.a.getLsbD 7)
    rw [← getLsbD_seven]
    exact ⟨_, exec_rla s, ha ▸ shiftLeftIn_toNat _ _, hspec⟩
  · obtain ⟨ha, hspec⟩ := retired_rotated s (shiftRightIn s.a (flagC s.f)) (s.a.getLsbD 0)
    rw [← getLsbD_zero]
    exact ⟨_, exec_rra s, ha ▸ shiftRightIn_toNat _ _, hspec⟩

/-! ### The rotates undo each other (R194) -/

@[simp] theorem State.rotated_a (s : State) (result : Byte) (out : Bool) : (s.rotated result out).a = result := rfl

@[simp] theorem State.flagC_rotated (s : State) (result : Byte) (out : Bool) : flagC (s.rotated result out).f = out :=
  flagC_writeFlags _ _ _ _ _

theorem State.rotated_f {s : State} (hnibble : s.f &&& 0x0F#8 = 0x00#8) (result : Byte) (out : Bool) :
    (s.rotated result out).f = 0x00#8 ∨ (s.rotated result out).f = 0x10#8 := by
  have hf : (s.rotated result out).f = encodeFlags false false false out := by
    change encodeFlags false false false out ||| (s.f &&& 0x0F#8) = _
    rw [hnibble, BitVec.or_zero]
  rw [hf]
  cases out
  · exact .inl rfl
  · exact .inr rfl

/-- Settles O28: the bit a rotate puts into C, or at the other end of A, is the one its opposite takes back. -/
theorem rotatesUndoEachOther : Obligations.RotatesUndoEachOther := by
  intro left right hrow s
  simp only [List.mem_cons, Prod.mk.injEq, List.not_mem_nil, or_false] at hrow
  rcases hrow with ⟨rfl, rfl⟩ | ⟨rfl, rfl⟩ | ⟨rfl, rfl⟩ | ⟨rfl, rfl⟩
  · refine ⟨_, _, exec_rla s, exec_rra _, ?_, fun _ => ?_, fun h => State.rotated_f h _ _⟩
    · simp only [State.retired_a, State.retired_f, State.rotated_a, State.flagC_rotated, shiftRightIn_shiftLeftIn]
    · simp only [State.retired_a, State.retired_f, State.rotated_a, State.flagC_rotated, getLsbD_shiftLeftIn]
  · refine ⟨_, _, exec_rra s, exec_rla _, ?_, fun _ => ?_, fun h => State.rotated_f h _ _⟩
    · simp only [State.retired_a, State.retired_f, State.rotated_a, State.flagC_rotated, shiftLeftIn_shiftRightIn]
    · simp only [State.retired_a, State.retired_f, State.rotated_a, State.flagC_rotated, getLsbD_shiftRightIn]
  · refine ⟨_, _, exec_rlca s, exec_rrca _, ?_, by simp, fun h => State.rotated_f h _ _⟩
    simp only [State.retired_a, State.rotated_a, getLsbD_shiftLeftIn, shiftRightIn_shiftLeftIn]
  · refine ⟨_, _, exec_rrca s, exec_rlca _, ?_, by simp, fun h => State.rotated_f h _ _⟩
    simp only [State.retired_a, State.rotated_a, getLsbD_shiftRightIn, shiftLeftIn_shiftRightIn]

end Sys2Proof.Machine

/-! PROOFS. The moves of the clock, the CPU and the host (spec/40_engine.md R100 to R103; spec/10_state.md R29;
spec/47_clock.md R213; spec/70_reset_and_hazards.md R266 to R268). -/

namespace Sys2Proof.Machine

open Sys2Proof.Safety

/-! ### When the CPU has a step, and what a poll does (R101 to R103) -/

theorem State.cpuEnabled_iff (s : State) :
    s.cpuEnabled = true ↔ s.runActive = true ∧ s.halted = false ∧ s.fault = none := by
  simp [State.cpuEnabled, State.ended, stopGatesRun]

theorem State.ended_eq_false_iff (s : State) : s.ended = false ↔ s.halted = false ∧ s.fault = none := by
  simp [State.ended]

theorem State.cpuEnabled_of_ended {s : State} (h : s.ended = true) : s.cpuEnabled = false := by
  simp [State.cpuEnabled, h]

theorem State.gateOpen_iff (s : State) : s.gateOpen = true ↔ s.cycleCount < s.totalCycles :=
  decide_eq_true_iff

theorem poll_of_not_enabled {s : State} (h : s.cpuEnabled = false) : poll s = .next s := by
  simp [poll, h]

theorem poll_of_gate_closed {s : State} (h : s.gateOpen = false) : poll s = .next s := by
  simp [poll, h]

theorem poll_of_open {s : State} (henabled : s.cpuEnabled = true) (hgate : s.gateOpen = true) :
    poll s = mapNext State.leaveRunIfHalted (execute s) := by
  simp [poll, henabled, hgate]

/-- A raise has already left the run. -/
@[simp] theorem State.leaveRunIfHalted_raise (s : State) (err : FatalError) :
    (s.raise err).leaveRunIfHalted = s.raise err := by
  unfold State.leaveRunIfHalted
  split <;> rfl

/-- All that a poll can do: nothing, or, with a step enabled and the gate open, retire the instruction fetched and
make the loop test, or raise. -/
theorem poll_next_cases {s t : State} (h : poll s = .next t) :
    t = s ∨ s.cpuEnabled = true ∧ s.gateOpen = true ∧
      ((∃ i u, fetch s = .ok i ∧ Effect i s u ∧ t = (u.retired (i.length s.config) i.cost).leaveRunIfHalted) ∨
        ∃ err, t = s.raise err) := by
  rcases poll_cases s with ⟨hstutter, -⟩ | ⟨v, henabled, hgate, hexecute, hpoll⟩
  · cases hstutter.symm.trans h
    exact .inl rfl
  · cases hpoll.symm.trans h
    refine .inr ⟨henabled, hgate, ?_⟩
    rcases execute_retires_or_raises s with ⟨i, u, hfetch, hretire, heffect⟩ | ⟨err, hraise⟩
    · cases hretire.symm.trans hexecute
      exact .inl ⟨i, u, hfetch, heffect, rfl⟩
    · cases hraise.symm.trans hexecute
      exact .inr ⟨err, s.leaveRunIfHalted_raise err⟩

/-- A gate open when polled is open after any tick. -/
theorem State.gateOpen_tick {s : State} (h : s.gateOpen = true) : s.tick.gateOpen = true := by
  rw [State.gateOpen_iff] at h ⊢
  exact (s.tick_cycleCount.trans_lt h).trans_le s.totalCycles_le_tick

/-- Settles O38: the gate decides between no change and one step with the loop test; a tick raises only the clock's
side of the gate. -/
theorem pacingGate : Obligations.PacingGate := by
  intro s henabled
  refine ⟨fun hclosed => poll_of_gate_closed ?_, fun hopen => poll_of_open henabled (s.gateOpen_iff.2 hopen),
    State.gateOpen_tick, rfl⟩
  rw [← Bool.not_eq_true, s.gateOpen_iff]
  omega

/-- Settles O39: a poll from an enabled state ends as `poll_next_cases` says, and the loop test makes `run_active`
the negation of `ended`. -/
theorem cpuStepsExactlyInActiveRun : Obligations.CpuStepsExactlyInActiveRun := by
  refine fun s => ⟨s.cpuEnabled_iff, poll_of_not_enabled, fun henabled t hpoll => ?_⟩
  obtain ⟨hactive, hhalted, hfault⟩ := s.cpuEnabled_iff.1 henabled
  suffices hend : t.runActive = !t.ended by
    refine ⟨fun h => by simp [hend, h], fun h => ⟨by simp [hend, h], ?_⟩⟩
    exact poll_of_not_enabled (State.cpuEnabled_of_ended h)
  rcases poll_next_cases hpoll with rfl | ⟨-, -, ⟨i, u, -, heffect, rfl⟩ | ⟨err, rfl⟩⟩
  · simp [State.ended, hactive, hhalted, hfault]
  · simp [State.ended, heffect.runActive, heffect.fault, hactive, hfault]
  · simp [State.ended]

/-- Settles O6: the fetch gives the decoded instruction, by its agreement with the decoder. -/
theorem stepRunsDecodedInstruction : Obligations.StepRunsDecodedInstruction := by
  intro s i hnext henabled hgate hdecode _
  have hfetch : fetch s = .ok i := (fetch_eq_ok_iff_decode s i).2 hdecode
  rw [step, hnext, move, poll_of_open henabled hgate, execute_of_fetch hfetch]

/-! ### The clock (R213) -/

theorem State.tick_of_started {s : State} (h : s.clockStarted = true) :
    s.tick = { s with totalCycles := s.totalCycles + 1 } :=
  if_pos h

theorem State.tick_of_not_started {s : State} (h : s.clockStarted = false) : s.tick = s := by
  simp [State.tick, h]

/-- A tick changes the clock's counter and nothing else. -/
theorem State.tick_eq_withClock (s : State) : s.tick = s.withClock s.tick.totalCycles s.schedule s.turn := by
  unfold State.tick
  split <;> rfl

/-- Settles O40, by the two cases of a tick. -/
theorem tickAddsOne : Obligations.TickAddsOne := fun _ =>
  ⟨fun h => congrArg Host.Outcome.next (State.tick_of_started h),
    fun h => congrArg Host.Outcome.next (State.tick_of_not_started h)⟩

/-! ### The host (R266 to R268) -/

/-- All that a host move can do: nothing, `run()` outside a run, or a write before a run. -/
theorem State.hostMove_cases (s : State) (a : HostAction) :
    (s.hostMove a = s ∧ (s.runActive = true ∨ s.ended = true)) ∨
      (s.runActive = false ∧ a = .run ∧ s.hostMove a = s.hostRun) ∨
      (s.runActive = false ∧ s.ended = false ∧ s.hostMove a = s.hostWrite a) := by
  unfold State.hostMove
  by_cases hactive : s.runActive = true
  · simp [hactive]
  by_cases ha : a = .run
  · simp [hactive, ha]
  by_cases hended : s.ended = true
  · simp [hactive, ha, hended]
  · simp [hactive, ha, hended]

theorem State.hostMove_of_active {s : State} (h : s.runActive = true) (a : HostAction) : s.hostMove a = s :=
  if_pos h

theorem State.hostMove_run {s : State} (h : s.runActive = false) : s.hostMove .run = s.hostRun := by
  simp [State.hostMove, h]

theorem State.hostMove_write {s : State} (hactive : s.runActive = false) (hended : s.ended = false)
    {a : HostAction} (ha : a ≠ .run) : s.hostMove a = s.hostWrite a := by
  simp [State.hostMove, hactive, hended, ha]

/-- A store write of the host writes all its bytes, or raises and writes none (R43, R266). -/
theorem State.hostWrite_writeMem (s : State) (addr : Nat) (bytes : List Byte) :
    s.hostWrite (.writeMem addr bytes) =
      if addr + bytes.length ≤ 65535 then { s with mem := s.mem.writeBytes addr bytes }
      else s.raise (.memoryBoundsViolation addr bytes.length) := by
  split
  · next hin => rw [State.hostWrite, s.mem.store_of_inside hin]
  · next hout => rw [State.hostWrite, s.mem.store_of_outside (Nat.lt_of_not_le hout)]

/-- What no host move changes: the counters, halted, stopped and the parameters. -/
structure HostKeeps (s t : State) : Prop where
  totalCycles : t.totalCycles = s.totalCycles
  cycleCount : t.cycleCount = s.cycleCount
  halted : t.halted = s.halted
  stopped : t.stopped = s.stopped
  config : t.config = s.config

theorem HostKeeps.refl (s : State) : HostKeeps s s := by
  constructor <;> rfl

/-- A write of the host keeps these, and neither starts the clock nor activates a run. -/
theorem State.hostWrite_keeps (s : State) (a : HostAction) :
    HostKeeps s (s.hostWrite a) ∧ (s.hostWrite a).clockStarted = s.clockStarted ∧
      (s.runActive = false → (s.hostWrite a).runActive = false) := by
  cases a with
  | writeReg r v =>
    rw [State.hostWrite]
    exact ⟨by constructor <;> simp, by simp, by simp⟩
  | writePair p v =>
    rw [State.hostWrite]
    exact ⟨by constructor <;> simp, by simp, by simp⟩
  | setPc v => exact ⟨{ HostKeeps.refl s with }, rfl, id⟩
  | setSp v => exact ⟨{ HostKeeps.refl s with }, rfl, id⟩
  | writeMem addr bytes =>
    rw [s.hostWrite_writeMem addr bytes]
    split
    · exact ⟨{ HostKeeps.refl s with }, rfl, id⟩
    · exact ⟨{ HostKeeps.refl s with }, rfl, fun _ => rfl⟩
  | run => exact ⟨.refl s, rfl, id⟩

theorem State.hostMove_keeps (s : State) (a : HostAction) : HostKeeps s (s.hostMove a) := by
  rcases s.hostMove_cases a with ⟨hmove, -⟩ | ⟨-, -, hmove⟩ | ⟨-, -, hmove⟩ <;> rw [hmove]
  · exact .refl s
  · exact { HostKeeps.refl s with }
  · exact (s.hostWrite_keeps a).1

/-- After the end the host can at most start the clock. -/
theorem State.hostMove_of_ended {s : State} (h : s.ended = true) (a : HostAction) :
    s.hostMove a = { s with clockStarted := (s.hostMove a).clockStarted } := by
  rcases s.hostMove_cases a with ⟨hmove, -⟩ | ⟨hactive, -, hmove⟩ | ⟨-, hnot, -⟩
  · rw [hmove]
  · rw [hmove, State.hostRun, h, Bool.not_true, ← hactive]
    rfl
  · simp [h] at hnot

/-- Settles O47: the host's move in a run is the identity. -/
theorem hostHasNoMoveDuringRun : Obligations.HostHasNoMoveDuringRun := by
  intro s a hactive
  have hmove : move (.host a) s = .next s := congrArg Host.Outcome.next (State.hostMove_of_active hactive a)
  exact ⟨hmove, fun hnext => by rw [step, hnext, hmove, mapNext_next]⟩

/-- Settles O48: `run()` outside a run starts the clock and activates the run exactly when nothing has ended. -/
theorem runStartsClockAndCpu : Obligations.RunStartsClockAndCpu := by
  intro s hactive
  refine ⟨s.hostRun, congrArg Host.Outcome.next (State.hostMove_run hactive), rfl, fun hended => ?_, fun hended => ?_,
    rfl⟩
  · obtain ⟨hhalted, hfault⟩ := s.ended_eq_false_iff.1 hended
    exact s.hostRun.cpuEnabled_iff.2 ⟨by simp [State.hostRun, hended], hhalted, hfault⟩
  · exact State.cpuEnabled_of_ended hended

/-- Settles O46: before a run a host move is the write itself, whose frame the register and store laws give. -/
theorem hostWritesBeforeRun : Obligations.HostWritesBeforeRun := by
  intro s hactive hended
  have hmove : ∀ {a : HostAction}, a ≠ .run → move (.host a) s = .next (s.hostWrite a) := fun ha =>
    congrArg Host.Outcome.next (State.hostMove_write hactive hended ha)
  refine ⟨fun r v => ?_, fun p v => ?_, fun v => hmove (by simp), fun v => hmove (by simp),
    fun addr bytes hin => ?_, fun addr bytes hout => ?_⟩
  · exact ⟨_, hmove (by simp), rfl, s.reg_setReg_self r v, (Frame.refl [r] s).setReg (by simp) v,
      by simp [State.hostWrite], by simp [State.hostWrite]⟩
  · exact ⟨_, hmove (by simp), rfl, s.pair_setPair_self p v,
      (Frame.refl [pairHigh p, pairLow p] s).setPair (by simp) (by simp) v,
      by simp [State.hostWrite], by simp [State.hostWrite]⟩
  · refine ⟨{ s with mem := s.mem.writeBytes addr bytes }, ?_, s.mem.read_writeBytes_inside addr bytes,
      s.mem.read_writeBytes_outside addr bytes, rfl⟩
    rw [hmove (by simp), State.hostWrite_writeMem, if_pos hin]
  · rw [hmove (by simp), State.hostWrite_writeMem, if_neg (Nat.not_le_of_lt hout)]

end Sys2Proof.Machine

/-! PROOFS. STOP and HALT, who writes what, and the invariant of every step (spec/41_control.md R121 to R123;
spec/10_state.md R13, R15, R21, R22, R29; spec/40_engine.md R101, R105, R110). -/

namespace Sys2Proof.Machine

open Sys2Proof.Safety

/-! ### STOP and HALT (R121, R122) -/

theorem State.ended_of_halted {s : State} (h : s.halted = true) : s.ended = true := by
  simp [State.ended, h]

theorem exec_stop (s : State) : exec .stop s = .next ({ s with stopped := true }.retired 2 4) := rfl

theorem exec_halt (s : State) : exec .halt s = .next ({ s with halted := true }.retired 1 4) := rfl

/-- Settles O14: STOP has the row without an immediate, and no test of a step reads the stopped flag. -/
theorem stopCompletes : Obligations.StopCompletes := fun s =>
  ⟨rfl, fun hpc hop => fetch_op hpc (.inr (hop ▸ rfl)), _, exec_stop s, rfl, ⟨rfl, rfl⟩,
    by simp [State.cpuEnabled, State.ended, stopGatesRun], rfl⟩

/-- Settles O15: a halted state is ended, and no host move clears halted. -/
theorem haltCompletes : Obligations.HaltCompletes := by
  intro s
  refine ⟨rfl, _, exec_halt s, rfl, ⟨rfl, rfl⟩, State.cpuEnabled_of_ended (State.ended_of_halted rfl), rfl,
    fun a => ?_, rfl⟩
  exact State.cpuEnabled_of_ended (State.ended_of_halted (State.hostMove_keeps _ a).halted)

/-! ### The moves and the step, by agent -/

theorem step_next_cases {s t : State} (h : step s = .next t) :
    ∃ u, move s.nextMove s = .next u ∧ t = u.advanceSchedule := by
  obtain ⟨u, hmove, hstep⟩ := step_cases s
  exact ⟨u, hmove, Host.Outcome.next.inj (h.symm.trans hstep)⟩

/-- What a poll never changes: sp, the clock's state, the parameters and the moves to come. -/
structure PollKeeps (s t : State) : Prop where
  sp : t.sp = s.sp
  totalCycles : t.totalCycles = s.totalCycles
  clockStarted : t.clockStarted = s.clockStarted
  config : t.config = s.config
  schedule : t.schedule = s.schedule
  turn : t.turn = s.turn

theorem poll_keeps {s t : State} (h : poll s = .next t) : PollKeeps s t := by
  rcases poll_next_cases h with rfl | ⟨-, -, ⟨i, u, -, heffect, rfl⟩ | ⟨err, rfl⟩⟩
  · constructor <;> rfl
  · constructor <;> simp [heffect.sp, heffect.totalCycles, heffect.clockStarted, heffect.config, heffect.schedule,
      heffect.turn]
  · constructor <;> rfl

/-- Settles O42: a tick writes its counter, a poll keeps the clock's state, and the host's moves are those of
`hostMove_cases`. -/
theorem agentsWriteOnlyTheirOwn : Obligations.AgentsWriteOnlyTheirOwn := by
  intro s t
  refine ⟨fun h => ?_, fun h => ?_, fun a hactive => (hostHasNoMoveDuringRun s a hactive).1, fun a hended h => ?_,
    fun a h => ?_⟩
  · cases h
    exact s.tick_eq_withClock
  · obtain ⟨hsp, htotal, hstarted, hconfig, hschedule, hturn⟩ := poll_keeps h
    exact ⟨hsp, htotal, hstarted, hconfig, hschedule, hturn⟩
  · cases h
    exact State.hostMove_of_ended hended a
  · cases h
    obtain ⟨htotal, hcycle, hhalted, hstopped, hconfig⟩ := s.hostMove_keeps a
    exact ⟨htotal, hcycle, hhalted, hstopped, hconfig⟩

/-! ### Who sets halted and stopped (R21, R22) -/

/-- A poll sets halted only when the byte at pc is HALT's, and stopped only when it is STOP's. -/
theorem poll_halted_stopped {s t : State} (h : poll s = .next t) :
    (t.halted = s.halted ∨ opcodeAt s = 0x76#8 ∧ t.halted = true) ∧
      (t.stopped = s.stopped ∨ opcodeAt s = 0x10#8 ∧ t.stopped = true) := by
  rcases poll_next_cases h with rfl | ⟨-, -, ⟨i, u, hfetch, heffect, rfl⟩ | ⟨err, rfl⟩⟩
  · exact ⟨.inl rfl, .inl rfl⟩
  · have hop : opcodeAt s = i.opcode := opcodeAt_of_fetch hfetch
    simp only [State.leaveRunIfHalted_halted, State.leaveRunIfHalted_stopped, State.retired_halted,
      State.retired_stopped, heffect.halted, heffect.stopped, hop]
    constructor
    · by_cases hi : i = .halt
      · exact .inr (by simp [hi, Instr.opcode])
      · exact .inl (by simp [hi])
    · by_cases hi : i = .stop
      · exact .inr (by simp [hi, Instr.opcode])
      · exact .inl (by simp [hi])
  · exact ⟨.inl rfl, .inl rfl⟩

/-- Settles O44: of the three agents only the CPU sets either flag, by `poll_halted_stopped`. -/
theorem haltedAndStoppedSetOnlyByTheirOpcodes : Obligations.HaltedAndStoppedSetOnlyByTheirOpcodes := by
  intro s t h
  obtain ⟨u, hmove, rfl⟩ := step_next_cases h
  rw [State.advanceSchedule_halted, State.advanceSchedule_stopped]
  cases hnext : s.nextMove with
  | clock =>
    rw [hnext] at hmove
    cases hmove
    exact ⟨.inl s.tick_halted, .inl s.tick_stopped⟩
  | cpu =>
    rw [hnext] at hmove
    simpa using poll_halted_stopped hmove
  | host a =>
    rw [hnext] at hmove
    cases hmove
    exact ⟨.inl (s.hostMove_keeps a).halted, .inl (s.hostMove_keeps a).stopped⟩

/-! ### pc moves forward (R110, R123) -/

theorem phLen_bounds (p : PhLen) : 1 ≤ phLen p ∧ phLen p ≤ 2 := by
  cases p <;> decide

/-- pc moves by one to three bytes, and past no byte that was not read unless the instruction is STOP. -/
theorem length_bounds (i : Instr) (c : Config) :
    1 ≤ i.length c ∧ i.length c ≤ 3 ∧ (i ≠ .stop → i.length c ≤ (encode i).length) := by
  have h0A := phLen_bounds c.ldaPhLen0A
  have h1A := phLen_bounds c.ldaPhLen1A
  cases i
  case stop => exact ⟨by simp [Instr.length], by simp [Instr.length], fun hne => absurd rfl hne⟩
  case ldAPh0A => exact ⟨h0A.1, h0A.2.trans (by decide), fun _ => h0A.2⟩
  case ldAPh1A => exact ⟨h1A.1, h1A.2.trans (by decide), fun _ => h1A.2⟩
  all_goals simp [Instr.length, encode, Instr.immediateBytes]

/-- Settles O45: an instruction that reads its bytes inside the store does not wrap pc, and STOP wraps it only at
0xFFFE. -/
theorem pcOnlyMovesForward : Obligations.PcOnlyMovesForward := by
  intro s t h
  rcases poll_next_cases h with rfl | ⟨-, -, ⟨i, u, hfetch, heffect, rfl⟩ | ⟨err, rfl⟩⟩
  · exact .inl rfl
  · right
    have hpc := toNat_lt_of_ne_top (pc_ne_top_of_fetch hfetch)
    obtain ⟨hpos, hle, hread⟩ := length_bounds i s.config
    rw [State.leaveRunIfHalted_pc, State.retired_pc, heffect.pc]
    have hmove : (s.pc + BitVec.ofNat 16 (i.length s.config)).toNat = (s.pc.toNat + i.length s.config) % 65536 := by
      simp
    by_cases hwrap : s.pc.toNat + i.length s.config < 65536
    · rw [Nat.mod_eq_of_lt hwrap] at hmove
      exact .inl (by omega)
    · have hstop : i = .stop := by
        by_contra hne
        have hinside := of_decide_eq_true (wellFormedAt_of_fetch hfetch)
        have := hread hne
        simp only [memSize] at hinside
        omega
      subst hstop
      have htop : s.pc = 0xFFFE#16 := BitVec.eq_of_toNat_eq (by
        change s.pc.toNat = 0xFFFE
        simp only [Instr.length] at hwrap
        omega)
      exact .inr ⟨htop, opcodeAt_of_fetch hfetch, by rw [htop, Instr.length]; rfl⟩
  · exact .inl rfl

/-! ### The low nibble of F (R13) -/

theorem lowNibble_masked (v : Byte) : v &&& 0xF0#8 &&& 0x0F#8 = 0x00#8 := by
  rw [BitVec.and_assoc]
  exact BitVec.and_zero

theorem State.setReg_lowNibble {s : State} (h : s.f &&& 0x0F#8 = 0x00#8) (r : Reg) (v : Byte) :
    (s.setReg r v).f &&& 0x0F#8 = 0x00#8 := by
  by_cases hr : r = .F
  · subst hr
    exact lowNibble_masked v
  · rwa [s.setReg_f_of_ne v hr]

theorem State.hostWrite_lowNibble {s : State} (h : s.f &&& 0x0F#8 = 0x00#8) (a : HostAction) :
    (s.hostWrite a).f &&& 0x0F#8 = 0x00#8 := by
  cases a with
  | writeReg r v => exact State.setReg_lowNibble h r v
  | writePair p v => exact State.setReg_lowNibble (State.setReg_lowNibble h _ _) _ _
  | setPc v => exact h
  | setSp v => exact h
  | writeMem addr bytes =>
    rw [s.hostWrite_writeMem]
    split
    · exact h
    · exact h
  | run => exact h

theorem State.hostMove_lowNibble {s : State} (h : s.f &&& 0x0F#8 = 0x00#8) (a : HostAction) :
    (s.hostMove a).f &&& 0x0F#8 = 0x00#8 := by
  rcases s.hostMove_cases a with ⟨hmove, -⟩ | ⟨-, -, hmove⟩ | ⟨-, -, hmove⟩ <;> rw [hmove]
  · exact h
  · exact h
  · exact State.hostWrite_lowNibble h a

theorem poll_lowNibble {s t : State} (h : poll s = .next t) : t.f &&& 0x0F#8 = s.f &&& 0x0F#8 := by
  rcases poll_next_cases h with rfl | ⟨-, -, ⟨i, u, -, heffect, rfl⟩ | ⟨err, rfl⟩⟩
  · rfl
  · simpa using heffect.lowNibble
  · rfl

theorem move_lowNibble {m : Move} {s t : State} (hnibble : s.f &&& 0x0F#8 = 0x00#8) (h : move m s = .next t) :
    t.f &&& 0x0F#8 = 0x00#8 := by
  cases m with
  | clock => cases h; rwa [s.tick_f]
  | cpu => rw [poll_lowNibble h, hnibble]
  | host a => cases h; exact State.hostMove_lowNibble hnibble a

/-- Settles O34, by the moves of the three agents and the write primitives of F. -/
theorem flagLowNibbleZero : Obligations.FlagLowNibbleZero := by
  refine ⟨rfl, fun s t hnibble h => ?_, fun _ _ => rfl, fun _ _ => rfl, fun _ _ _ h hop =>
    exec_f_of_not_mem_flagOpcodes hop h⟩
  obtain ⟨u, hmove, rfl⟩ := step_next_cases h
  exact move_lowNibble (t := u) hnibble hmove

/-! ### The invariant of every step -/

/-- Settles O53: every clause is about the literal reset state. -/
theorem resetMeetsInvariant : Obligations.ResetMeetsInvariant where
  memory := rfl
  flagNibble := rfl
  counters := Nat.zero_le _
  endedInactive := fun _ => rfl
  activeStarted := fun h => h
  beforeStart := fun _ => ⟨rfl, rfl, rfl, rfl⟩
  parameters := by decide

theorem State.hostWrite_mem_wf {s : State} (h : s.mem.wf = true) (a : HostAction) :
    (s.hostWrite a).mem.wf = true := by
  cases a with
  | writeReg r v => rwa [State.hostWrite, s.setReg_mem]
  | writePair p v => rwa [State.hostWrite, s.setPair_mem]
  | setPc v => exact h
  | setSp v => exact h
  | writeMem addr bytes =>
    rw [s.hostWrite_writeMem]
    split
    · next hin => exact Memory.wf_writeBytes s.mem addr bytes h hin
    · exact h
  | run => exact h

end Sys2Proof.Machine

namespace Sys2Proof.Safety

open Sys2Proof.Machine

theorem Inv.tick {s : State} (h : Inv s) : Inv s.tick := by
  rcases hstarted : s.clockStarted
  · rwa [State.tick_of_not_started hstarted]
  · rw [State.tick_of_started hstarted]
    exact { h with
      counters := h.counters.trans (Nat.add_le_add_right (Nat.le_succ _) 19)
      beforeStart := fun hnot => absurd (hstarted.symm.trans hnot) (by decide) }

theorem Inv.hostWrite {s : State} (h : Inv s) (hactive : s.runActive = false) (a : HostAction) :
    Inv (s.hostWrite a) := by
  obtain ⟨hkeeps, hstarted, hinactive⟩ := s.hostWrite_keeps a
  have hinactive := hinactive hactive
  exact {
    memory := State.hostWrite_mem_wf h.memory a
    flagNibble := State.hostWrite_lowNibble h.flagNibble a
    counters := by rw [hkeeps.cycleCount, hkeeps.totalCycles]; exact h.counters
    endedInactive := fun _ => hinactive
    activeStarted := fun hact => absurd (hinactive.symm.trans hact) (by decide)
    beforeStart := by
      rw [hstarted, hkeeps.totalCycles, hkeeps.cycleCount, hkeeps.halted, hkeeps.stopped]
      exact h.beforeStart
    parameters := hkeeps.config ▸ h.parameters }

theorem Inv.hostRun {s : State} (h : Inv s) : Inv s.hostRun :=
  { h with
    endedInactive := fun hended => by
      change (!s.ended) = false
      rw [show s.ended = true from hended, Bool.not_true]
    activeStarted := fun _ => rfl
    beforeStart := fun hnot => absurd hnot.symm Bool.false_ne_true }

theorem Inv.hostMove {s : State} (h : Inv s) (a : HostAction) : Inv (s.hostMove a) := by
  rcases s.hostMove_cases a with ⟨hmove, -⟩ | ⟨-, -, hmove⟩ | ⟨hactive, -, hmove⟩ <;> rw [hmove]
  · exact h
  · exact h.hostRun
  · exact h.hostWrite hactive a

theorem Inv.raise {s : State} (h : Inv s) (err : FatalError) : Inv (s.raise err) :=
  { h with
    endedInactive := fun _ => rfl
    activeStarted := fun hact => absurd hact Bool.false_ne_true }

/-- A retired effect and its loop test keep the invariant: the gate was open, and the cost is at most 20 (R105). -/
theorem Inv.retired {s u : State} {i : Instr} (h : Inv s) (henabled : s.cpuEnabled = true)
    (hgate : s.gateOpen = true) (heffect : Effect i s u) :
    Inv (u.retired (i.length s.config) i.cost).leaveRunIfHalted := by
  obtain ⟨hactive, hhalted, hfault⟩ := s.cpuEnabled_iff.1 henabled
  have hstarted := h.activeStarted hactive
  have hopen := s.gateOpen_iff.1 hgate
  have hcost := (cost_bounds i).2
  exact {
    memory := by simpa using heffect.memory h.memory
    flagNibble := by simpa using heffect.lowNibble.trans h.flagNibble
    counters := by
      simp only [State.leaveRunIfHalted_cycleCount, State.retired_cycleCount, heffect.cycleCount,
        State.leaveRunIfHalted_totalCycles, State.retired_totalCycles, heffect.totalCycles]
      omega
    endedInactive := by
      simp only [State.ended, State.leaveRunIfHalted_halted, State.leaveRunIfHalted_fault, State.retired_fault,
        heffect.fault, hfault, Option.isSome_none, Bool.or_false, State.leaveRunIfHalted_runActive]
      intro hended
      rw [hended]
      rfl
    activeStarted := by simp [heffect.clockStarted, hstarted]
    beforeStart := by simp [heffect.clockStarted, hstarted]
    parameters := by simpa [heffect.config] using h.parameters }

theorem Inv.of_poll {s t : State} (h : Inv s) (hpoll : poll s = .next t) : Inv t := by
  rcases poll_next_cases hpoll with rfl | ⟨henabled, hgate, ⟨i, u, -, heffect, rfl⟩ | ⟨err, rfl⟩⟩
  · exact h
  · exact h.retired henabled hgate heffect
  · exact h.raise err

theorem Inv.of_move {m : Move} {s t : State} (h : Inv s) (hmove : move m s = .next t) : Inv t := by
  cases m with
  | clock => cases hmove; exact h.tick
  | cpu => exact h.of_poll hmove
  | host a => cases hmove; exact h.hostMove a

/-- No clause of the invariant reads the moves to come. -/
theorem Inv.advanceSchedule {s : State} (h : Inv s) : Inv s.advanceSchedule :=
  { h with }

end Sys2Proof.Safety

namespace Sys2Proof.Machine

open Sys2Proof.Safety

/-- Settles O54: the move of each agent keeps the invariant, and so does the advance of the schedule. -/
theorem stepKeepsInvariant : Obligations.StepKeepsInvariant := by
  intro s t h hstep
  obtain ⟨u, hmove, rfl⟩ := step_next_cases hstep
  exact (h.of_move hmove).advanceSchedule

end Sys2Proof.Machine

/-! PROOFS. Any number of steps: the end is for ever, the counters, and determinism (spec/40_engine.md R109, R112;
spec/60_exceptions.md R251). -/

namespace Sys2Proof.Machine

open Sys2Proof.Safety

/-! ### Runs of the machine -/

theorem core_run_succ {M : Host.Core} {s u : M.State} (h : M.step s = .next u) (k : Nat) :
    M.run (k + 1) s = M.run k u := by
  simp [Host.Core.run, h]

theorem run_succ {s u : State} (h : step s = .next u) (k : Nat) :
    Host.Core.run core (k + 1) s = Host.Core.run core k u :=
  core_run_succ (M := core) h k

/-- A relation that holds of no steps, and of one step followed by any number, holds along every run. -/
theorem run_induction {R : State → State → Prop} (hrefl : ∀ s, R s s)
    (hstep : ∀ s u t, step s = .next u → R u t → R s t) {k : Nat} {s t : State}
    (h : Host.Core.run core k s = .next t) : R s t := by
  induction k generalizing s with
  | zero =>
    cases h
    exact hrefl _
  | succ k ih =>
    obtain ⟨u, -, hu⟩ := step_cases s
    exact hstep _ _ _ hu (ih ((run_succ hu k).symm.trans h))

/-! ### The counters (R23, R25) -/

theorem poll_cycleCount_le {s t : State} (h : poll s = .next t) : s.cycleCount ≤ t.cycleCount := by
  rcases poll_next_cases h with rfl | ⟨-, -, ⟨i, u, -, heffect, rfl⟩ | ⟨err, rfl⟩⟩
  · exact le_rfl
  · simp [heffect.cycleCount]
  · exact le_rfl

theorem move_cycleCount_le {m : Move} {s t : State} (h : move m s = .next t) : s.cycleCount ≤ t.cycleCount := by
  cases m with
  | clock => cases h; exact s.tick_cycleCount.ge
  | cpu => exact poll_cycleCount_le h
  | host a => cases h; exact (s.hostMove_keeps a).cycleCount.ge

theorem step_cycleCount_le {s t : State} (h : step s = .next t) : s.cycleCount ≤ t.cycleCount := by
  obtain ⟨u, hmove, rfl⟩ := step_next_cases h
  exact move_cycleCount_le (t := u) hmove

/-- Settles O58, by induction on the run. -/
theorem countersNeverDecrease : Obligations.CountersNeverDecrease := by
  intro s t k h
  refine run_induction (R := fun s t => s.totalCycles ≤ t.totalCycles ∧ s.cycleCount ≤ t.cycleCount)
    (fun _ => ⟨le_rfl, le_rfl⟩) (fun s u t hstep hrest => ?_) h
  exact ⟨(step_totalCycles_le hstep).trans hrest.1, (step_cycleCount_le hstep).trans hrest.2⟩

/-! ### The end is for ever (R109, R251) -/

/-- An ended, inactive machine stays one, and its architectural state keeps all but the clock's start. -/
def StaysEnded (s t : State) : Prop :=
  s.ended = true → s.runActive = false → t.ended = true ∧ t.runActive = false ∧
    architectural t = { architectural s with clockStarted := t.clockStarted }

theorem move_staysEnded {m : Move} {s t : State} (h : move m s = .next t) : StaysEnded s t := by
  intro hended hactive
  cases m with
  | clock =>
    cases h
    rw [s.tick_eq_withClock]
    exact ⟨hended, hactive, rfl⟩
  | cpu =>
    cases (poll_of_not_enabled (State.cpuEnabled_of_ended hended)).symm.trans h
    exact ⟨hended, hactive, rfl⟩
  | host a =>
    cases h
    rw [State.hostMove_of_ended hended a]
    exact ⟨hended, hactive, rfl⟩

/-- Settles O55, by induction on the run: each move keeps the end, and changes of two moves add up to a change of
the clock's start alone. -/
theorem endIsForever : Obligations.EndIsForever := by
  intro s t k hended hactive h
  refine run_induction (R := StaysEnded) (fun s he ha => ⟨he, ha, rfl⟩) (fun s u t hstep hrest he ha => ?_) h hended
    hactive
  obtain ⟨v, hmove, rfl⟩ := step_next_cases hstep
  obtain ⟨hve, hva, hv⟩ := move_staysEnded (t := v) hmove he ha
  obtain ⟨hte, hta, ht⟩ := hrest hve hva
  refine ⟨hte, hta, ht.trans ?_⟩
  change { architectural v with clockStarted := t.clockStarted } = _
  rw [hv]

/-- Settles O51: construction tests the frequency alone, and a step is total. -/
theorem zeroFrequencyIsInvalid : Obligations.ZeroFrequencyIsInvalid :=
  ⟨fun _ _ => ⟨fun hzero => if_pos hzero, fun hne => ⟨_, if_neg hne⟩⟩,
    fun s => let ⟨_, _, hstep⟩ := step_cases s; ⟨_, hstep⟩⟩

/-! ### The architectural state and the steps of the CPU (R112) -/

/-- One execution and its loop test, where an execution answers always. -/
def State.afterStep (s : State) : State :=
  match execute s with
  | .next t => t.leaveRunIfHalted
  | .fault _ => s
  | .refused _ => s

theorem State.afterStep_of_execute {s u : State} (h : execute s = .next u) : s.afterStep = u.leaveRunIfHalted := by
  rw [State.afterStep, h]

theorem execute_total (s : State) : ∃ t, execute s = .next t := by
  rcases execute_retires_or_raises s with ⟨i, u, -, h, -⟩ | ⟨err, h⟩
  · exact ⟨_, h⟩
  · exact ⟨_, h⟩

theorem State.leaveRunIfHalted_withClock (s : State) (total : Nat) (moves : List Move) (turn : Nat) :
    (s.withClock total moves turn).leaveRunIfHalted = s.leaveRunIfHalted.withClock total moves turn := by
  unfold State.leaveRunIfHalted
  rw [show (s.withClock total moves turn).halted = s.halted from rfl]
  split <;> rfl

theorem State.afterStep_withClock (s : State) (total : Nat) (moves : List Move) (turn : Nat) :
    (s.withClock total moves turn).afterStep = s.afterStep.withClock total moves turn := by
  obtain ⟨u, hu⟩ := execute_total s
  have hclock := execute_withClock s total moves turn
  rw [hu, mapNext_next] at hclock
  rw [State.afterStep_of_execute hclock, State.afterStep_of_execute hu, State.leaveRunIfHalted_withClock]

/-- The next architectural state when the CPU steps with no gate: none while it has no step. -/
def State.cpuStep (s : State) : State := if s.cpuEnabled then s.afterStep else s

theorem cpuStep_architectural (s : State) : (architectural s).cpuStep = architectural s.cpuStep := by
  have henabled : (architectural s).cpuEnabled = s.cpuEnabled := rfl
  unfold State.cpuStep
  rw [henabled]
  split
  · exact s.afterStep_withClock 0 [] 0
  · rfl

theorem State.cpuStep_of_ended {s : State} (h : s.ended = true) : s.cpuStep = s := by
  rw [State.cpuStep, State.cpuEnabled_of_ended h]
  rfl

/-- To the architectural state a move of the clock or of the CPU is no change or one step of the CPU. -/
theorem move_architectural {m : Move} (hm : isAgentMove m) {s t : State} (h : move m s = .next t) :
    architectural t = architectural s ∨ architectural t = (architectural s).cpuStep := by
  rcases hm with rfl | rfl
  · cases h
    rw [s.tick_eq_withClock]
    exact .inl rfl
  · rcases poll_cases s with ⟨hstutter, -⟩ | ⟨u, henabled, -, hexecute, hpoll⟩
    · cases hstutter.symm.trans h
      exact .inl rfl
    · cases hpoll.symm.trans h
      rw [cpuStep_architectural, State.cpuStep, if_pos henabled, State.afterStep_of_execute hexecute]
      exact .inr rfl

/-- Along a schedule of agent moves the architectural state makes some number of CPU steps. -/
theorem run_architectural {σ : List Move} (hσ : ∀ m ∈ σ, isAgentMove m) {s t : State} (hs : s.schedule = σ)
    (h : Host.Core.run core σ.length s = .next t) :
    ∃ n, architectural t = State.cpuStep^[n] (architectural s) := by
  induction σ generalizing s with
  | nil =>
    cases h
    exact ⟨0, rfl⟩
  | cons m rest ih =>
    obtain ⟨u, hmove, hstep⟩ := step_cases s
    have hplan := State.plan_of_cons hs
    have hrest : u.advanceSchedule.schedule = rest := by rw [step_schedule s _ hstep, hplan]
    rw [State.nextMove, hplan] at hmove
    obtain ⟨n, hn⟩ := ih (fun m' hm' => hσ m' (.tail _ hm')) hrest ((run_succ hstep _).symm.trans h)
    have hu : architectural u.advanceSchedule = architectural u := rfl
    rw [hu] at hn
    rcases move_architectural (hσ m (.head _)) hmove with hsame | hmoved
    · exact ⟨n, by rw [hn, hsame]⟩
    · exact ⟨n + 1, by rw [hn, hmoved, Function.iterate_succ_apply]⟩

/-- Of two numbers of CPU steps that both reach an end, the larger adds nothing. -/
theorem cpuStep_iterate_of_ended {a : State} {n m : Nat} (hle : n ≤ m) (hn : (State.cpuStep^[n] a).ended = true) :
    State.cpuStep^[m] a = State.cpuStep^[n] a := by
  obtain ⟨d, rfl⟩ := Nat.exists_eq_add_of_le' hle
  rw [Function.iterate_add_apply]
  exact Function.iterate_fixed (State.cpuStep_of_ended hn) d

/-- Settles O56: both ends are numbers of CPU steps from one architectural state, and an end is a fixed point. -/
theorem finalStateIgnoresSchedule : Obligations.FinalStateIgnoresSchedule := by
  intro s t₁ t₂ σ₁ σ₂ h₁ h₂ hrun₁ hrun₂ hend₁ hend₂
  obtain ⟨n₁, hn₁⟩ := run_architectural h₁ rfl hrun₁
  obtain ⟨n₂, hn₂⟩ := run_architectural h₂ rfl hrun₂
  have hstart : architectural { s with schedule := σ₁ } = architectural { s with schedule := σ₂ } := rfl
  have hfix₁ : (architectural t₁).ended = true := hend₁
  have hfix₂ : (architectural t₂).ended = true := hend₂
  rw [hn₁, hstart] at hfix₁
  rw [hn₂] at hfix₂
  rw [hn₁, hn₂, hstart]
  rcases le_total n₁ n₂ with hle | hle
  · exact (cpuStep_iterate_of_ended hle hfix₁).symm
  · exact cpuStep_iterate_of_ended hle hfix₂

end Sys2Proof.Machine

/-! PROOFS. Progress under the fair order of the agents (spec/40_engine.md R111; spec/47_clock.md R217). -/

namespace Sys2Proof.Safety

open Sys2Proof.Machine

/-! ### Eventually -/

theorem Eventually.here {p : State → Prop} {s : State} (h : p s) : Eventually p s :=
  ⟨0, s, rfl, h⟩

theorem Eventually.of_step {p : State → Prop} {s u : State} (hstep : step s = .next u) (h : Eventually p u) :
    Eventually p s := by
  obtain ⟨k, t, hrun, ht⟩ := h
  exact ⟨k + 1, t, (run_succ hstep k).trans hrun, ht⟩

theorem Eventually.trans {p q : State → Prop} {s : State} (h : Eventually p s)
    (hq : ∀ t, p t → Eventually q t) : Eventually q s := by
  obtain ⟨k, t, hrun, ht⟩ := h
  exact run_induction (R := fun s t => Eventually q t → Eventually q s) (fun _ hs => hs)
    (fun _ _ _ hstep hrest ht => .of_step hstep (hrest ht)) hrun (hq t ht)

/-- What every step keeps still holds when the property is reached. -/
theorem Eventually.with_invariant {p I : State → Prop} {s : State} (h : Eventually p s)
    (hkeep : ∀ s t, I s → step s = .next t → I t) (hs : I s) : Eventually (fun t => p t ∧ I t) s := by
  obtain ⟨k, t, hrun, ht⟩ := h
  exact ⟨k, t, hrun, ht, run_induction (R := fun s t => I s → I t) (fun _ hs => hs)
    (fun s u _ hstep hrest hs => hrest (hkeep s u hs hstep)) hrun hs⟩

/-! ### Weak fairness (R217) -/

theorem step_schedule_of_cons {s : State} {m : Move} {rest : List Move} (hs : s.schedule = m :: rest) :
    ∃ t, step s = .next t ∧ t.schedule = rest := by
  obtain ⟨t, -, hstep⟩ := step_cases s
  exact ⟨_, hstep, by rw [step_schedule s _ hstep, State.plan_of_cons hs]⟩

theorem eventually_schedule_nil (s : State) : Eventually (fun t => t.schedule = []) s := by
  induction hs : s.schedule generalizing s with
  | nil => exact .here hs
  | cons m rest ih =>
    obtain ⟨t, hstep, ht⟩ := step_schedule_of_cons hs
    exact .of_step hstep (ih t ht)

theorem eventually_nextMove_of_mem_schedule {m : Move} {s : State} (hm : m ∈ s.schedule) :
    Eventually (fun t => t.nextMove = m) s := by
  induction hs : s.schedule generalizing s with
  | nil => simp [hs] at hm
  | cons m' rest ih =>
    rcases List.mem_cons.1 (hs ▸ hm) with rfl | hrest
    · exact .here (by rw [State.nextMove, State.plan_of_cons hs])
    · obtain ⟨t, hstep, ht⟩ := step_schedule_of_cons hs
      exact .of_step hstep (ih (ht ▸ hrest) ht)

/-- Every move of the plan comes: its first now, the others from the schedule that the step leaves. -/
theorem eventually_nextMove_of_mem_plan {m : Move} {s : State} (hm : m ∈ s.plan.1 :: s.plan.2) :
    Eventually (fun t => t.nextMove = m) s := by
  rcases List.mem_cons.1 hm with rfl | hrest
  · exact .here rfl
  · obtain ⟨t, -, hstep⟩ := step_cases s
    exact .of_step hstep (eventually_nextMove_of_mem_schedule (step_schedule s _ hstep ▸ hrest))

/-- Once the schedule has run out, the plan is a round, with its tick and its poll. -/
theorem eventually_nextMove_of_mem_round {m : Move}
    (hm : ∀ beforeTick beforePoll, m ∈ beforeTick ++ Move.clock :: (beforePoll ++ [Move.cpu])) (s : State) :
    Eventually (fun t => t.nextMove = m) s := by
  refine (eventually_schedule_nil s).trans fun t ht => eventually_nextMove_of_mem_plan ?_
  rw [State.plan_of_nil ht, freeRound, roundOf_moves]
  exact hm _ _

theorem weaklyFair (s : State) : WeaklyFair s :=
  ⟨eventually_nextMove_of_mem_round (by simp) s, eventually_nextMove_of_mem_round (by simp) s⟩

/-! ### A started clock passes every count -/

theorem hostMove_clockStarted {s : State} (h : s.clockStarted = true) (a : HostAction) :
    (s.hostMove a).clockStarted = true := by
  rcases s.hostMove_cases a with ⟨hmove, -⟩ | ⟨-, -, hmove⟩ | ⟨-, -, hmove⟩ <;> rw [hmove]
  · exact h
  · rfl
  · exact (s.hostWrite_keeps a).2.1.trans h

theorem step_clockStarted {s t : State} (h : s.clockStarted = true) (hstep : step s = .next t) :
    t.clockStarted = true := by
  obtain ⟨u, hmove, rfl⟩ := step_next_cases hstep
  rw [State.advanceSchedule_clockStarted]
  cases hnext : s.nextMove <;> rw [hnext] at hmove
  case clock => cases hmove; rwa [s.tick_clockStarted]
  case cpu => rw [(poll_keeps hmove).clockStarted, h]
  case host a => cases hmove; exact hostMove_clockStarted h a

theorem step_of_clock {s : State} (hstarted : s.clockStarted = true) (hnext : s.nextMove = .clock) :
    step s = .next { s with totalCycles := s.totalCycles + 1 }.advanceSchedule := by
  rw [step, hnext, move, State.tick_of_started hstarted, mapNext_next]

theorem eventually_le_totalCycles {s : State} (hstarted : s.clockStarted = true) (n : Nat) :
    Eventually (fun t => n ≤ t.totalCycles) s := by
  induction n with
  | zero => exact .here (Nat.zero_le _)
  | succ n ih =>
    have hkeep : ∀ s t : State, (s.clockStarted = true ∧ n ≤ s.totalCycles) → step s = .next t →
        (t.clockStarted = true ∧ n ≤ t.totalCycles) := fun s t hs hstep =>
      ⟨step_clockStarted hs.1 hstep, hs.2.trans (step_totalCycles_le hstep)⟩
    refine (ih.with_invariant (fun _ _ => step_clockStarted) hstarted).trans fun t ht => ?_
    refine ((weaklyFair t).1.with_invariant hkeep ht.symm).trans fun u hu => ?_
    obtain ⟨hnext, hu, hn⟩ := hu
    exact .of_step (step_of_clock hu hnext) (.here (Nat.succ_le_succ hn))

/-! ### The CPU comes to step -/

theorem cpuStep_of_execute {s u : State} (henabled : s.cpuEnabled = true) (h : execute s = .next u) :
    (architectural s).cpuStep = architectural u.leaveRunIfHalted := by
  rw [cpuStep_architectural, State.cpuStep, if_pos henabled, State.afterStep_of_execute h]

/-- A poll with a step enabled and the gate open makes the CPU's step. -/
theorem step_of_open_poll {s : State} (hnext : s.nextMove = .cpu) (henabled : s.cpuEnabled = true)
    (hgate : s.gateOpen = true) : ∃ t, step s = .next t ∧ architectural t = (architectural s).cpuStep := by
  obtain ⟨u, hu⟩ := execute_total s
  refine ⟨u.leaveRunIfHalted.advanceSchedule, ?_, (cpuStep_of_execute henabled hu).symm⟩
  rw [step, hnext, move, poll_of_open henabled hgate, hu]
  rfl

/-- In a run a step of any agent changes nothing architectural, or makes the CPU's step. -/
theorem step_architectural {s t : State} (hactive : s.runActive = true) (hstep : step s = .next t) :
    architectural t = architectural s ∨ architectural t = (architectural s).cpuStep := by
  obtain ⟨u, hmove, rfl⟩ := step_next_cases hstep
  change architectural u = _ ∨ architectural u = _
  cases hnext : s.nextMove <;> rw [hnext] at hmove
  case clock => exact move_architectural (.inl rfl) hmove
  case cpu => exact move_architectural (.inr rfl) hmove
  case host a =>
    cases hmove
    rw [State.hostMove_of_active hactive]
    exact .inl rfl

/-- `t` is architecturally `s`, and from it the CPU's step of `s` never comes. -/
def WaitsForEver (s t : State) : Prop :=
  architectural t = architectural s ∧ ¬ Eventually (fun u => architectural u = (architectural s).cpuStep) t

theorem WaitsForEver.step {s t u : State} (hactive : s.runActive = true) (h : WaitsForEver s t)
    (hstep : step t = .next u) : WaitsForEver s u := by
  obtain ⟨ht, hnever⟩ := h
  have hnever' := fun hu => hnever (.of_step hstep hu)
  have hactive' : t.runActive = true := (congrArg State.runActive ht).trans hactive
  rcases step_architectural hactive' hstep with hsame | hmoved
  · exact ⟨hsame.trans ht, hnever'⟩
  · exact absurd (.here (ht ▸ hmoved)) hnever'

/-- Fairness brings the gate open and then a poll; a machine that waited for ever would make the CPU's step there. -/
theorem eventually_cpuStep {s : State} (henabled : s.cpuEnabled = true) (hstarted : s.clockStarted = true) :
    Eventually (fun t => architectural t = (architectural s).cpuStep) s := by
  by_contra hnever
  refine hnever ?_
  have hactive : s.runActive = true := (s.cpuEnabled_iff.1 henabled).1
  have hopen := (eventually_le_totalCycles hstarted (s.cycleCount + 1)).with_invariant
    (fun _ _ => WaitsForEver.step hactive) ⟨rfl, hnever⟩
  have hpoll := hopen.trans fun t ht => (weaklyFair t).2.with_invariant
    (I := fun t => s.cycleCount + 1 ≤ t.totalCycles ∧ WaitsForEver s t)
    (fun _ _ h hstep => ⟨h.1.trans (step_totalCycles_le hstep), h.2.step hactive hstep⟩) ht
  refine hpoll.trans fun t ht => ?_
  obtain ⟨hnext, hcount, hsame, -⟩ := ht
  have henabled' : t.cpuEnabled = true := (congrArg State.cpuEnabled hsame :).trans henabled
  have hcycle : (architectural t).cycleCount = s.cycleCount := (congrArg State.cycleCount hsame :)
  have hgate : t.gateOpen = true := t.gateOpen_iff.2 (hcycle.trans_lt hcount)
  obtain ⟨u, hstep, hu⟩ := step_of_open_poll hnext henabled' hgate
  exact .of_step hstep (.here (hsame ▸ hu))

/-- After ticks that open the gate the next poll makes the CPU's step. -/
theorem run_ticks_then_poll {n : Nat} {s : State} (henabled : s.cpuEnabled = true) (hstarted : s.clockStarted = true)
    (hcount : s.cycleCount < s.totalCycles + n) (hs : s.schedule = List.replicate n .clock ++ [.cpu]) :
    ∃ t, Host.Core.run core (n + 1) s = .next t ∧ architectural t = (architectural s).cpuStep := by
  induction n generalizing s with
  | zero =>
    have hnext : s.nextMove = .cpu := by rw [State.nextMove, State.plan_of_cons hs]
    obtain ⟨t, hstep, ht⟩ := step_of_open_poll hnext henabled (s.gateOpen_iff.2 hcount)
    exact ⟨t, run_succ hstep 0, ht⟩
  | succ n ih =>
    have hplan := State.plan_of_cons (s := s) hs
    have hstep := step_of_clock hstarted (by rw [State.nextMove, hplan])
    obtain ⟨t, hrun, ht⟩ := ih (s := { s with totalCycles := s.totalCycles + 1 }.advanceSchedule) henabled hstarted
      (by simp only [State.advanceSchedule_cycleCount, State.advanceSchedule_totalCycles]; omega)
      (by rw [step_schedule s _ hstep, hplan]; rfl)
    exact ⟨t, (run_succ hstep (n + 1)).trans hrun, ht⟩

/-- Settles O57: fairness from the rounds, then the clock, then the CPU's step, which `execute` gives. -/
theorem enoughTicksLetTheCpuStep : Obligations.EnoughTicksLetTheCpuStep := by
  refine ⟨weaklyFair, fun s n hstarted => eventually_le_totalCycles hstarted n, fun s henabled hstarted => ?_,
    fun s n henabled hstarted hcount hs => ?_⟩
  · obtain ⟨u, hu⟩ := execute_total s
    exact ⟨u, hu, cpuStep_of_execute henabled hu ▸ eventually_cpuStep henabled hstarted⟩
  · obtain ⟨u, hu⟩ := execute_total s
    obtain ⟨t, hrun, ht⟩ := run_ticks_then_poll henabled hstarted hcount hs
    exact ⟨t, u, hrun, hu, ht.trans (cpuStep_of_execute henabled hu)⟩

end Sys2Proof.Safety

/-! PROOFS. An execution reads the program's own state only (spec/40_engine.md R104; spec/10_state.md R30). -/

namespace Sys2Proof.Machine

open Sys2Proof.Safety

/-- The program's state of `s` with all that `Execute` may not read taken from `r`. -/
def State.programIn (s r : State) : State :=
  { s with
    halted := r.halted
    stopped := r.stopped
    fault := r.fault
    runActive := r.runActive
    totalCycles := r.totalCycles
    clockStarted := r.clockStarted
    schedule := r.schedule
    turn := r.turn }

theorem eq_programIn_of_agree {s s' : State} (h : AgreeOnProgram s s') : s' = s.programIn s' := by
  obtain ⟨hregs, hpc, hsp, hmem, hcycle, hconfig⟩ := h
  cases s'
  simp only [State.programIn, State.mk.injEq, and_true, true_and]
  exact ⟨hregs .A, hregs .B, hregs .C, hregs .D, hregs .E, hregs .H, hregs .L, hregs .F, hpc, hsp, hmem, hcycle,
    hconfig⟩

theorem agree_programIn (s r : State) : AgreeOnProgram s (s.programIn r) :=
  ⟨fun q => by cases q <;> rfl, rfl, rfl, rfl, rfl, rfl⟩

theorem agree_raise {s s' : State} (h : AgreeOnProgram s s') (err : FatalError) :
    AgreeOnProgram (s.raise err) (s'.raise err) :=
  { h with regs := fun q => by rw [State.reg_raise, State.reg_raise, h.regs] }

theorem storeAndRetire_agree (addr : Word) (bytes : List Byte) (len cost : Nat) (s r : State) :
    ∃ t t', storeAndRetire addr bytes len cost s = .next t ∧
      storeAndRetire addr bytes len cost (s.programIn r) = .next t' ∧ AgreeOnProgram t t' := by
  have hmem : (s.programIn r).mem = s.mem := rfl
  unfold storeAndRetire
  rw [hmem]
  rcases s.mem.store addr.toNat bytes with err | m
  · exact ⟨_, _, rfl, rfl, agree_raise (agree_programIn s r) err⟩
  · exact ⟨_, _, rfl, rfl, agree_programIn _ r⟩

/-- The meaning of every instruction gives states that agree, from states that agree. -/
theorem exec_programIn (i : Instr) (s r : State) :
    ∃ t t', exec i s = .next t ∧ exec i (s.programIn r) = .next t' ∧ AgreeOnProgram t t' := by
  cases i
  case ldIndBCA | ldIndDEA | ldIndA16SP => exact storeAndRetire_agree _ _ _ _ s r
  all_goals exact ⟨_, _, rfl, rfl, fun q => by cases q <;> rfl, rfl, rfl, rfl, rfl, rfl⟩

section
variable {s s' : State} (hagree : AgreeOnProgram s s')
include hagree

theorem exec_agree {i : Instr} {t t' : State} (h : exec i s = .next t) (h' : exec i s' = .next t') :
    AgreeOnProgram t t' := by
  rw [eq_programIn_of_agree hagree] at h'
  obtain ⟨u, u', hu, hu', hresult⟩ := exec_programIn i s s'
  cases hu.symm.trans h
  cases hu'.symm.trans h'
  exact hresult

theorem fetch_agree : fetch s' = fetch s := by
  unfold fetch readImmediate State.readD8 State.readD16
  rw [hagree.mem, hagree.pc]

theorem pair_agree (p : Pair) : s'.pair p = s.pair p := by
  rw [State.pair, State.pair, hagree.regs, hagree.regs]

theorem execute_raises_iff_of_agree (err : FatalError) :
    execute s' = .next (s'.raise err) ↔ execute s = .next (s.raise err) := by
  simp only [execute_eq_raise_iff, exec_eq_raise_iff, fetch_agree hagree, pair_agree hagree]

end

/-- Settles O10: the fetch is the same, the meaning gives states that agree and is the same instruction, whose
effect says what it sets, and it raises from both states or from neither. -/
theorem executeReadsProgramStateOnly : Obligations.ExecuteReadsProgramStateOnly := by
  intro s s' hagree
  have hraises := execute_raises_iff_of_agree hagree
  rcases execute_retires_or_raises s with ⟨i, u, hfetch, hretire, heffect⟩ | ⟨err, hraise⟩
  · have hexec : exec i s = _ := (execute_of_fetch hfetch).symm.trans hretire
    have hexecute' : execute s' = exec i s' := execute_of_fetch ((fetch_agree hagree).trans hfetch)
    rcases exec_cases i s' with ⟨u', hexec', heffect'⟩ | ⟨-, err, hexec'⟩
    · refine ⟨_, _, hretire, hexecute'.trans hexec', exec_agree hagree hexec hexec',
        ⟨decide (i = .halt), decide (i = .stop), heffect.halted, heffect'.halted, heffect.stopped, heffect'.stopped⟩,
        fun err => ?_⟩
      simpa [hretire, hexecute', hexec'] using (hraises err).symm
    · have hraise := hretire.symm.trans ((hraises err).1 (hexecute'.trans hexec'))
      exact absurd (Host.Outcome.next.inj hraise)
        (State.retired_ne_raise heffect.cycleCount _ (cost_pos i) err)
  · exact ⟨_, _, hraise, (hraises err).2 hraise, agree_raise hagree err, ⟨false, false, by simp⟩, fun _ => by simp⟩

/-! ### A tick commutes with a poll (R241) -/

/-- A tick after a poll sets the counter to what a tick before it would have set. -/
theorem tick_of_poll {s t : State} (h : poll s = .next t) :
    t.tick = t.withClock s.tick.totalCycles s.schedule s.turn := by
  have hkeeps := poll_keeps h
  rw [t.tick_eq_withClock, t.tick_totalCycles, s.tick_totalCycles, hkeeps.clockStarted, hkeeps.totalCycles,
    hkeeps.schedule, hkeeps.turn]

/-- Settles O43: a tick changes the clock's counter alone, which no instruction reads, and keeps the gate open. -/
theorem tickCommutesWithCpuStep : Obligations.TickCommutesWithCpuStep := by
  intro s hgate
  have hsame : s.tick.cpuEnabled = s.cpuEnabled := by simp [State.cpuEnabled, State.ended]
  rcases henabled : s.cpuEnabled
  · rw [poll_of_not_enabled henabled, poll_of_not_enabled (hsame.trans henabled), mapNext_next]
  · obtain ⟨u, hu⟩ := execute_total s
    have hpoll : poll s = .next u.leaveRunIfHalted := by rw [poll_of_open henabled hgate, hu, mapNext_next]
    rw [poll_of_open (hsame.trans henabled) (State.gateOpen_tick hgate), hpoll, mapNext_next, tick_of_poll hpoll,
      s.tick_eq_withClock, execute_withClock, hu, mapNext_next, mapNext_next, State.leaveRunIfHalted_withClock]
    rfl

end Sys2Proof.Machine

/-! PROOFS. Construction (spec/70_reset_and_hazards.md R260 to R263). -/

namespace Sys2Proof.Machine

open Sys2Proof.Safety

theorem Memory.read_zeroMemory (addr : Nat) : zeroMemory.read addr = 0x00#8 := by
  by_cases haddr : addr = defaultConfig.haltSeedAddr.toNat
  · rw [haddr, zeroMemory, Memory.read_write_self]
  · rw [zeroMemory, Memory.read_write_of_ne _ _ haddr, Memory.read, Memory.unlisted, if_neg haddr]
    rfl

/-- Inside the store an address reads as the last cell of the image for it, and as before without one. -/
theorem Memory.read_writeImage (m : Memory) (image : List Host.Cell) {addr : Nat} (haddr : addr < 65535) :
    (m.writeImage image).read addr =
      if image.any (fun cell => cell.1 == addr) then imageByte image addr else m.read addr := by
  induction image generalizing m with
  | nil => rfl
  | cons cell rest ih =>
    obtain ⟨x, v⟩ := cell
    rw [Memory.writeImage, ih, List.any_cons, imageByte]
    by_cases hrest : rest.any (fun cell => cell.1 == addr) = true
    · simp [hrest]
    by_cases hx : x = addr
    · have hin : inStore x 1 = true := (inStore_iff x 1).2 (by omega)
      simp [hrest, hx, hx ▸ hin]
    · have hread : (if inStore x 1 then m.write x v else m).read addr = m.read addr := by
        split
        · exact Memory.read_write_of_ne m v fun h => hx h.symm
        · rfl
      simp [hrest, hx, hread]

theorem imageByte_of_not_any {image : List Host.Cell} {addr : Nat}
    (h : image.any (fun cell => cell.1 == addr) = false) : imageByte image addr = 0x00#8 := by
  cases image with
  | nil => rfl
  | cons cell rest =>
    obtain ⟨x, v⟩ := cell
    simp only [List.any_cons, Bool.or_eq_false_iff, beq_eq_false_iff_ne] at h
    simp [imageByte, h]

/-- Beside the seed boot memory is `INIT_MEM` (R261). -/
theorem read_bootMemory_of_ne (c : Config) (image : List Host.Cell) {addr : Nat} (haddr : addr < 65535)
    (hne : addr ≠ c.haltSeedAddr.toNat) : (bootMemory c image).read addr = imageByte image addr := by
  rw [bootMemory, Memory.read_write_of_ne _ _ hne, Memory.read_writeImage _ _ haddr, Memory.read_zeroMemory]
  split
  · rfl
  · next h => rw [imageByte_of_not_any (Bool.eq_false_of_not_eq_true h)]

theorem config_wellFormed_iff (c : Config) :
    c.wellFormed = true ↔
      c.freqHz ≠ 0#32 ∧ 0x0100 ≤ c.haltSeedAddr.toNat ∧ c.haltSeedAddr.toNat ≤ 0xFFFE := by
  simp [Config.wellFormed, and_assoc]

theorem bootMemory_wf {c : Config} (hc : c.wellFormed = true) (image : List Host.Cell) :
    (bootMemory c image).wf = true := by
  obtain ⟨-, -, hseed⟩ := (config_wellFormed_iff c).1 hc
  have hzero : zeroMemory.wf = true := rfl
  exact Memory.wf_write _ _ _ (Memory.wf_writeImage _ image hzero) (Nat.lt_succ_of_le hseed)

theorem construct_of_ne_zero {c : Config} (h : c.freqHz ≠ 0#32) (image : List Host.Cell) :
    construct c image = .next { State.reset with config := c, mem := bootMemory c image } :=
  if_neg h

/-- Settles O52: construction differs from reset in the parameters and memory, and boot memory is canonical. -/
theorem constructionGivesBootState : Obligations.ConstructionGivesBootState := by
  intro c image hc
  have hfreq : c.freqHz ≠ 0#32 := ((config_wellFormed_iff c).1 hc).1
  have hinv : Inv { State.reset with config := c, mem := bootMemory c image } :=
    { resetMeetsInvariant with
      memory := bootMemory_wf hc image
      parameters := hc }
  exact ⟨_, construct_of_ne_zero hfreq image, hinv, rfl, rfl, Memory.read_write_self _ _ _,
    fun _ haddr hne => read_bootMemory_of_ne c image haddr hne⟩

/-- The default seed over zeros is what an unlisted byte reads as, so nothing is listed. -/
theorem bootMemory_default : bootMemory defaultConfig [] = [] := rfl

/-- Settles O50: the registers by `reset_reg`, memory by what an unlisted byte reads as, and construction by
`bootMemory_default`. -/
theorem resetState : Obligations.ResetState := by
  refine ⟨State.reset_reg, rfl, rfl, rfl, rfl, rfl, rfl, rfl, rfl, rfl, rfl, fun addr _ => rfl, ?_⟩
  rw [construct_of_ne_zero (by decide), bootMemory_default]
  rfl

end Sys2Proof.Machine

/-! PROOFS. The pacing loop with a time source (spec/47_clock.md R211, R214, R215). -/

namespace Sys2Proof.Machine

/-! ### One look of the loop (R214) -/

theorem RealClock.pass_of_reached {k : RealClock} {now : Rat} (hstarted : k.started = true) (h : k.deadline ≤ now) :
    k.pass now = { k with totalCycles := k.totalCycles + 1, deadline := k.deadline + periodNs k.freqHz } :=
  if_pos ⟨hstarted, h⟩

theorem RealClock.pass_of_before {k : RealClock} {now : Rat} (h : now < k.deadline) : k.pass now = k :=
  if_neg fun hreached => absurd hreached.2 (not_le_of_gt h)

theorem RealClock.pass_of_not_started {k : RealClock} {now : Rat} (h : k.started = false) : k.pass now = k := by
  simp [RealClock.pass, h]

theorem RealClock.start_of_not_started {k : RealClock} (h : k.started = false) (now : Rat) :
    k.start now = { k with started := true, startTime := now, deadline := now } := by
  simp [RealClock.start, h]

/-- Settles O59, by the cases of a look and of a start. -/
theorem pacingLoopTick : Obligations.PacingLoopTick := by
  refine fun k now => ⟨fun h => ?_, RealClock.pass_of_reached, fun _ => RealClock.pass_of_before,
    RealClock.pass_of_not_started⟩
  rw [RealClock.start_of_not_started h]
  exact ⟨rfl, rfl⟩

/-! ### The counter against real time (R215) -/

theorem periodNs_pos {freq : BitVec 32} (h : freq ≠ 0#32) : 0 < periodNs freq := by
  have hpos : 0 < freq.toNat := Nat.pos_of_ne_zero fun hzero => h (BitVec.eq_of_toNat_eq hzero)
  exact div_pos (by norm_num) (by exact_mod_cast hpos)

/-- The deadline is `start` plus one period for each tick, and no tick so far came after `t`. -/
structure OnPace (freq : BitVec 32) (start t : Rat) (k : RealClock) : Prop where
  freqHz : k.freqHz = freq
  deadline : k.deadline = start + k.totalCycles * periodNs freq
  notAhead : k.deadline ≤ t + periodNs freq

theorem OnPace.pass {freq : BitVec 32} {start t : Rat} {k : RealClock} (h : OnPace freq start t k) {now : Rat}
    (hnow : now ≤ t) : OnPace freq start t (k.pass now) := by
  unfold RealClock.pass
  split
  · next hreached =>
    have hfreq := h.freqHz
    have hdeadline := h.deadline
    have hbefore := hreached.2.trans hnow
    constructor
    · exact hfreq
    · simp only [hfreq, hdeadline]
      push_cast
      ring
    · simp only [hfreq]
      linarith
  · exact h

theorem OnPace.passes {freq : BitVec 32} {start t : Rat} {k : RealClock} (h : OnPace freq start t k)
    {times : List Rat} (htimes : ∀ now ∈ times, now ≤ t) : OnPace freq start t (k.passes times) := by
  induction times generalizing k with
  | nil => exact h
  | cons now rest ih => exact ih (h.pass (htimes now (.head _))) fun x hx => htimes x (.tail _ hx)

theorem OnPace.start {freq : BitVec 32} {start t : Rat} (hfreq : freq ≠ 0#32) (h : start ≤ t) :
    OnPace freq start t ((RealClock.new freq).start start) where
  freqHz := rfl
  deadline := by simp [RealClock.start, RealClock.new]
  notAhead := h.trans (le_add_of_nonneg_right (periodNs_pos hfreq).le)

/-- Settles O60: on pace, the ticks but one fit between start and `t`. -/
theorem realTimeUpperBound : Obligations.RealTimeUpperBound := by
  intro freq t₀ t times hfreq ht htimes
  obtain ⟨-, hdeadline, hahead⟩ := (OnPace.start hfreq ht).passes htimes
  have hpos := periodNs_pos hfreq
  rw [← sub_le_iff_le_add, Int.le_floor, le_div_iff₀ hpos]
  push_cast
  linarith

end Sys2Proof.Machine
